-- ==== Sys2Proof/Word.lean ====
section
/-! DEFINITION. The number types of the machine (00_scope.md R8, R10). -/

namespace Sys2Proof

/-- `Byte`: an unsigned 8-bit value (R10). -/
abbrev Byte := BitVec 8

/-- A 16-bit immediate pattern (R8 `IMM_BITS`). -/
abbrev Half := BitVec 16

/-- A 32-bit value: an `Int32` register read through `toInt`, or a `UInt32` read through `toNat` (R10). -/
abbrev Word := BitVec 32

end Sys2Proof
end

