-- ==== Sys2Proof/Config.lean ====
section
/-! DEFINITION. The parameters the spec leaves open (00_scope.md R8, 30_encoding.md R63). A machine carries
their values as data (`State.cfg`, log 1), so that every statement about a state ranges over all of them.
The reference values stand in Decode.lean (`Config.reference`). -/

namespace Sys2Proof

/-- The open part of `OPCODE_OF` (R63): the opcode byte of each mnemonic but HLT and LOAD, whose bytes 0 and 1
the source fixes. `igl` is the byte an encoder emits for IGL; the decoder never reads it (92_eei_decisions.md D34). -/
structure OpcodeOf where
  add  : Byte
  sub  : Byte
  mul  : Byte
  div  : Byte
  jmp  : Byte
  jmpf : Byte
  jmpb : Byte
  eq   : Byte
  neq  : Byte
  gt   : Byte
  lt   : Byte
  gte  : Byte
  lte  : Byte
  jeq  : Byte
  jneq : Byte
  aloc : Byte
  inc  : Byte
  dec  : Byte
  igl  : Byte
  deriving DecidableEq, Repr

/-- The four OPEN parameters of R8. -/
structure Config where
  /-- `OPCODE_OF` (R63). -/
  opcodes : OpcodeOf
  /-- `REL_BASE`, the base offset of relative jumps (43_control_flow.md R169). -/
  relBase : Int
  /-- `PROG_MAX`, the maximum program length in bytes. -/
  progMax : Nat
  /-- `HEAP_MAX`, the maximum heap length in bytes. -/
  heapMax : Nat
  deriving DecidableEq, Repr

end Sys2Proof
end

