-- ==== Sys2Proof/Syntax.lean ====
section
/-! DEFINITION. The 21 operation codes, the five operand formats and the instructions (30_encoding.md R61, R63). -/

namespace Sys2Proof

/-- The closed set of operation codes (R63), in the order of the spec's table. -/
inductive Opcode where
  | hlt | load | add | sub | mul | div | jmp | jmpf | jmpb
  | eq | neq | gt | lt | gte | lte | jeq | jneq | aloc | inc | dec
  | igl
  deriving DecidableEq, Repr

/-- The operand formats of R61. -/
inductive Format where
  /-- opcode, three padding bytes -/
  | n
  /-- opcode, register, 16-bit big-endian immediate -/
  | ri
  /-- opcode, source, source, destination -/
  | rrr
  /-- opcode, source, source, padding -/
  | rr
  /-- opcode, register, two padding bytes -/
  | r
  deriving DecidableEq, Repr

/-- The instructions, one constructor per row of the opcode table. A register operand is the whole byte of its
field: 32 to 255 name no register and fault at execution, so they are not illegal encodings (R21, R68). Padding
bytes carry no meaning and are not part of an instruction (R67). -/
inductive Instr where
  | hlt
  | load (r : Byte) (imm : Half)
  | add (r1 r2 r3 : Byte)
  | sub (r1 r2 r3 : Byte)
  | mul (r1 r2 r3 : Byte)
  | div (r1 r2 r3 : Byte)
  | jmp (r : Byte)
  | jmpf (r : Byte)
  | jmpb (r : Byte)
  | eq (r1 r2 : Byte)
  | neq (r1 r2 : Byte)
  | gt (r1 r2 : Byte)
  | lt (r1 r2 : Byte)
  | gte (r1 r2 : Byte)
  | lte (r1 r2 : Byte)
  | jeq (r : Byte)
  | jneq (r : Byte)
  | aloc (r : Byte)
  | inc (r : Byte)
  | dec (r : Byte)
  | igl
  deriving DecidableEq, Repr

end Sys2Proof
end

