-- ==== Sys2Proof/WellFormed.lean ====
section
/-! DEFINITION. Well-formed instructions and well-formed parameters. -/

namespace Sys2Proof

/-- The register fields of an instruction in byte order 1, 2, 3 (30_encoding.md R61): the bytes that
40_fetch_decode_execute.md R105 checks. -/
def Instr.regFields : Instr → List Byte
  | .hlt => []
  | .load r _ => [r]
  | .add r1 r2 r3 => [r1, r2, r3]
  | .sub r1 r2 r3 => [r1, r2, r3]
  | .mul r1 r2 r3 => [r1, r2, r3]
  | .div r1 r2 r3 => [r1, r2, r3]
  | .jmp r => [r]
  | .jmpf r => [r]
  | .jmpb r => [r]
  | .eq r1 r2 => [r1, r2]
  | .neq r1 r2 => [r1, r2]
  | .gt r1 r2 => [r1, r2]
  | .lt r1 r2 => [r1, r2]
  | .gte r1 r2 => [r1, r2]
  | .lte r1 r2 => [r1, r2]
  | .jeq r => [r]
  | .jneq r => [r]
  | .aloc r => [r]
  | .inc r => [r]
  | .dec r => [r]
  | .igl => []

/-- Every register field names a register: 0 to 31 (10_state.md R21). An instruction that is not well formed
still decodes and runs: it raises RegisterOutOfRange (R68, log 17). -/
def Instr.wellFormed (i : Instr) : Bool :=
  i.regFields.all fun b => decide (b.toNat < 32)

/-- All opcode bytes of an assignment, in table order; HLT = 0 and LOAD = 1 are fixed (R63). -/
def OpcodeOf.bytes (o : OpcodeOf) : List Byte :=
  [0, 1, o.add, o.sub, o.mul, o.div, o.jmp, o.jmpf, o.jmpb, o.eq, o.neq, o.gt, o.lt, o.gte, o.lte,
   o.jeq, o.jneq, o.aloc, o.inc, o.dec, o.igl]

/-- The constraints on the parameters: opcode bytes are distinct (R63, log 20), and every program offset up to
`PROG_MAX` fits the 32-bit pc (10_state.md R23, R26; log 3). -/
abbrev Config.WellFormed (c : Config) : Prop :=
  c.opcodes.bytes.Nodup ∧ c.progMax < 2 ^ 32

end Sys2Proof
end

