-- ==== Sys2Proof/Decode.lean ====
section
/-! DEFINITION. The decoder (30_encoding.md R60 to R69), the encoder, and the reference values of the
parameters (R63, 00_scope.md R8). -/

namespace Sys2Proof

/-- The reference assignment of R63. -/
def OpcodeOf.reference : OpcodeOf where
  add  := 0x02
  sub  := 0x03
  mul  := 0x04
  div  := 0x05
  jmp  := 0x06
  jmpf := 0x07
  jmpb := 0x08
  eq   := 0x09
  neq  := 0x0A
  gt   := 0x0B
  lt   := 0x0C
  gte  := 0x0D
  lte  := 0x0E
  jeq  := 0x0F
  jneq := 0x10
  aloc := 0x11
  inc  := 0x12
  dec  := 0x13
  igl  := 0x14

/-- The reference values of the open parameters (R8; log 2). -/
def Config.reference : Config where
  opcodes := OpcodeOf.reference
  relBase := 4
  progMax := 2 ^ 32 - 1
  heapMax := 2 ^ 32 - 1

/-- `OPCODE_OF`: the opcode byte of each mnemonic (R63). -/
def OpcodeOf.byte (o : OpcodeOf) : Opcode → Byte
  | .hlt  => 0x00
  | .load => 0x01
  | .add  => o.add
  | .sub  => o.sub
  | .mul  => o.mul
  | .div  => o.div
  | .jmp  => o.jmp
  | .jmpf => o.jmpf
  | .jmpb => o.jmpb
  | .eq   => o.eq
  | .neq  => o.neq
  | .gt   => o.gt
  | .lt   => o.lt
  | .gte  => o.gte
  | .lte  => o.lte
  | .jeq  => o.jeq
  | .jneq => o.jneq
  | .aloc => o.aloc
  | .inc  => o.inc
  | .dec  => o.dec
  | .igl  => o.igl

/-- The 20 executable operation codes: all but the sentinel IGL (R63). -/
def Opcode.executable : List Opcode :=
  [.hlt, .load, .add, .sub, .mul, .div, .jmp, .jmpf, .jmpb, .eq, .neq, .gt, .lt, .gte, .lte,
   .jeq, .jneq, .aloc, .inc, .dec]

/-- The operand format of an operation code (R61). -/
def Opcode.format : Opcode → Format
  | .hlt | .igl => .n
  | .load => .ri
  | .add | .sub | .mul | .div => .rrr
  | .eq | .neq | .gt | .lt | .gte | .lte => .rr
  | .jmp | .jmpf | .jmpb | .jeq | .jneq | .aloc | .inc | .dec => .r

/-- The operation code of an instruction. -/
def Instr.opcode : Instr → Opcode
  | .hlt => .hlt
  | .load _ _ => .load
  | .add _ _ _ => .add
  | .sub _ _ _ => .sub
  | .mul _ _ _ => .mul
  | .div _ _ _ => .div
  | .jmp _ => .jmp
  | .jmpf _ => .jmpf
  | .jmpb _ => .jmpb
  | .eq _ _ => .eq
  | .neq _ _ => .neq
  | .gt _ _ => .gt
  | .lt _ _ => .lt
  | .gte _ _ => .gte
  | .lte _ _ => .lte
  | .jeq _ => .jeq
  | .jneq _ => .jneq
  | .aloc _ => .aloc
  | .inc _ => .inc
  | .dec _ => .dec
  | .igl => .igl

/-- `be16(hi, lo)`: `hi * 256 + lo` as a 16-bit pattern (00_scope.md R10, 20_memory.md R45). -/
def be16 (hi lo : Byte) : Half := BitVec.ofNat 16 (hi.toNat * 256 + lo.toNat)

/-- The high byte of a 16-bit pattern, stored at the lower address (R45). -/
def hiByte (h : Half) : Byte := BitVec.ofNat 8 (h.toNat / 256)

/-- The low byte of a 16-bit pattern. -/
def loByte (h : Half) : Byte := BitVec.ofNat 8 (h.toNat % 256)

/-- The decoder of R66: a byte assigned to an executable operation code decodes to it, every other byte to IGL. -/
def decodeOpcode (c : Config) (b : Byte) : Opcode :=
  (Opcode.executable.find? fun op => c.opcodes.byte op == b).getD .igl

/-- The instruction in four fetched bytes: the fields of R62 that the format uses; the rest is padding (R67). -/
def decodeWord (c : Config) (b0 b1 b2 b3 : Byte) : Instr :=
  match decodeOpcode c b0 with
  | .hlt  => .hlt
  | .load => .load b1 (be16 b2 b3)
  | .add  => .add b1 b2 b3
  | .sub  => .sub b1 b2 b3
  | .mul  => .mul b1 b2 b3
  | .div  => .div b1 b2 b3
  | .jmp  => .jmp b1
  | .jmpf => .jmpf b1
  | .jmpb => .jmpb b1
  | .eq   => .eq b1 b2
  | .neq  => .neq b1 b2
  | .gt   => .gt b1 b2
  | .lt   => .lt b1 b2
  | .gte  => .gte b1 b2
  | .lte  => .lte b1 b2
  | .jeq  => .jeq b1
  | .jneq => .jneq b1
  | .aloc => .aloc b1
  | .inc  => .inc b1
  | .dec  => .dec b1
  | .igl  => .igl

/-- What reading one instruction from bytes gives. -/
inductive Decoded where
  /-- an instruction, and the bytes after its four -/
  | instr (i : Instr) (rest : List Byte)
  /-- fewer than four bytes, and how many there were (40_fetch_decode_execute.md R101) -/
  | truncated (available : Nat)
  deriving DecidableEq, Repr

/-- Read one instruction from bytes. Only a lack of bytes can stop it: decoding four bytes never fails (R66). -/
def decode (c : Config) : List Byte → Decoded
  | b0 :: b1 :: b2 :: b3 :: rest => .instr (decodeWord c b0 b1 b2 b3) rest
  | bytes => .truncated bytes.length

/-- The four bytes of an instruction: opcode byte, operand bytes, zero padding (R60, R61). -/
def encode (c : Config) (i : Instr) : List Byte :=
  match i with
  | .hlt           => [c.opcodes.byte .hlt, 0, 0, 0]
  | .load r imm    => [c.opcodes.byte .load, r, hiByte imm, loByte imm]
  | .add r1 r2 r3  => [c.opcodes.byte .add, r1, r2, r3]
  | .sub r1 r2 r3  => [c.opcodes.byte .sub, r1, r2, r3]
  | .mul r1 r2 r3  => [c.opcodes.byte .mul, r1, r2, r3]
  | .div r1 r2 r3  => [c.opcodes.byte .div, r1, r2, r3]
  | .jmp r         => [c.opcodes.byte .jmp, r, 0, 0]
  | .jmpf r        => [c.opcodes.byte .jmpf, r, 0, 0]
  | .jmpb r        => [c.opcodes.byte .jmpb, r, 0, 0]
  | .eq r1 r2      => [c.opcodes.byte .eq, r1, r2, 0]
  | .neq r1 r2     => [c.opcodes.byte .neq, r1, r2, 0]
  | .gt r1 r2      => [c.opcodes.byte .gt, r1, r2, 0]
  | .lt r1 r2      => [c.opcodes.byte .lt, r1, r2, 0]
  | .gte r1 r2     => [c.opcodes.byte .gte, r1, r2, 0]
  | .lte r1 r2     => [c.opcodes.byte .lte, r1, r2, 0]
  | .jeq r         => [c.opcodes.byte .jeq, r, 0, 0]
  | .jneq r        => [c.opcodes.byte .jneq, r, 0, 0]
  | .aloc r        => [c.opcodes.byte .aloc, r, 0, 0]
  | .inc r         => [c.opcodes.byte .inc, r, 0, 0]
  | .dec r         => [c.opcodes.byte .dec, r, 0, 0]
  | .igl           => [c.opcodes.byte .igl, 0, 0, 0]

/-- The four bytes of the word `W` of 00_scope.md R9, byte 0 in `W[31:24]`, as they lie in the program buffer;
bits at and above `nbits` are 0 (log 21). -/
def tableWordBytes (nbits w : Nat) : List Byte :=
  let v := w % 2 ^ nbits
  [BitVec.ofNat 8 (v / 2 ^ 24), BitVec.ofNat 8 (v / 2 ^ 16), BitVec.ofNat 8 (v / 2 ^ 8), BitVec.ofNat 8 v]

/-- The instruction the decoder reads from a word of spec/opcode_table.json, under the reference assignment
that the table is written in. -/
def decodeTableWord (nbits w : Nat) : Option Instr :=
  match decode Config.reference (tableWordBytes nbits w) with
  | .instr i _ => some i
  | .truncated _ => none

end Sys2Proof
end

