-- ==== Sys2Proof/Machine/State.lean ====
section
/-! DEFINITION. The state of the engine (10_state.md R20 to R36), its value after reset, and the reasons a step
of the Lean machine can stop. -/

namespace Sys2Proof.Machine

/-- The program space (20_memory.md R41): the byte at address `a` is the one at index `a`, and an address at or
beyond the length holds nothing. One program space is one list, so equal spaces are equal data (log 5). -/
abbrev Memory := List Byte

/-- The engine's own control state, visible to the host and to no instruction (R31). -/
inductive Status where
  /-- the last step completed with Continue, or no step has run since reset -/
  | ready
  /-- the last step executed HLT -/
  | haltedHlt
  /-- the last step decoded IGL -/
  | haltedIllegal
  /-- the last step found `pc >= len` -/
  | haltedEnd
  /-- a step raised a fault, which `State.fault` records -/
  | faulted
  deriving DecidableEq, Repr

/-- The fault kinds of 60_exceptions.md R200. -/
inductive FaultKind where
  | registerOutOfRange
  | pcOutOfBounds
  | divisionByZero
  | divisionOverflow
  | negativeHeapGrowth
  | heapExhausted
  | truncatedInstruction
  deriving DecidableEq, Repr

/-- The fault record (R32). -/
structure FaultRecord where
  kind : FaultKind
  /-- `pc0` of the faulting step -/
  pc   : Word
  /-- the bytes fetched, 0 to 4 of them -/
  word : List Byte
  /-- the value that R200 gives for the kind -/
  info : Int
  deriving DecidableEq, Repr

/-- The whole state: the tuple of 10_state.md, and the parameters of this engine (log 1). -/
structure State where
  /-- `x[0]` to `x[31]` (R20) -/
  regs    : Vector Word 32
  /-- the program counter, a byte offset into `prog` (R23) -/
  pc      : Word
  /-- the equal flag (R27) -/
  eqf     : Bool
  /-- the unsigned remainder register (R28) -/
  rem     : Word
  /-- the length of the heap in bytes (R29) -/
  heapLen : Nat
  /-- the program byte buffer (R30) -/
  prog    : Memory
  /-- the engine's status (R31) -/
  status  : Status
  /-- the fault record, or none (R32) -/
  fault   : Option FaultRecord
  /-- the engine's parameters (00_scope.md R8); nothing changes them -/
  cfg     : Config
  deriving DecidableEq, Repr

/-- The state RESET leaves in an engine with parameters `c`: the table of R34. -/
def State.resetWith (c : Config) : State where
  regs    := Vector.replicate 32 0
  pc      := 0
  eqf     := false
  rem     := 0
  heapLen := 0
  prog    := []
  status  := .ready
  fault   := none
  cfg     := c

/-- The machine right after reset, with the reference parameters (R34; log 2). -/
def State.reset : State := State.resetWith Config.reference

/-- The reasons a step of the Lean machine can end without a next state: there are none, and the type has no
constructor. The seven faults of the engine (60_exceptions.md R200) are not here: the spec describes the state
each of them leaves, so the step that raises one answers that state (log 7; safe). -/
inductive Fault where
  deriving DecidableEq, Repr

/-- The reasons the Lean machine can refuse an instruction. -/
inductive Refusal where
  /-- Raised by an arm of `exec` whose instruction has no meaning yet; no arm does (safe: nothing is provable of
  the refused step's state). -/
  | notModelled (mnemonic : String)
  deriving DecidableEq, Repr

/-- What a step or an instruction answers. -/
abbrev Result := Host.Outcome State Fault Refusal

end Sys2Proof.Machine
end

