-- ==== Sys2Proof/Machine/Ops.lean ====
section
/-! DEFINITION. The named operations over registers, program space and control state that the meanings share. -/

namespace Sys2Proof.Machine

/-! ### Numbers (00_scope.md R10) -/

/-- `wrap32(v)`: the `Int32` congruent to `v` modulo 2^32. -/
def wrap32 (v : Int) : Word := BitVec.ofInt 32 v

/-- `u32(v)`: the `UInt32` congruent to `v` modulo 2^32. -/
def u32 (v : Int) : Word := BitVec.ofInt 32 v

/-! ### Program space (20_memory.md R41 to R47) -/

/-- `prog[a]`, or nothing where `a` is at or beyond the length (R41). -/
def Memory.read (m : Memory) (a : Nat) : Option Byte := m[a]?

/-- `Fetch4(a)`: the four bytes at `a`, or those of them that exist (00_scope.md R11, R101). -/
def Memory.fetch4 (m : Memory) (a : Nat) : List Byte := (m.drop a).take 4

/-- The bytes `bs` placed at address `a` on; a gap below `a` is filled with zero bytes. Only `withFetchWord`
uses it: no instruction writes program space (R53; log 12). -/
def Memory.place (m : Memory) (a : Nat) (bs : List Byte) : Memory :=
  m.take a ++ List.replicate (a - m.length) 0 ++ bs ++ m.drop (a + bs.length)

/-- Program space as (address, byte) pairs, addresses from `a` on. -/
def Memory.cellsFrom (a : Nat) : Memory → List Host.Cell
  | [] => []
  | b :: bs => (a, b) :: Memory.cellsFrom (a + 1) bs

/-- Program space as (address, byte) pairs (log 5). -/
def Memory.cells (m : Memory) : List Host.Cell := Memory.cellsFrom 0 m

/-- The form every program space has: its addresses are `UInt32` values (R41). That the listed addresses rise
strictly and that no listed byte is redundant holds of every list (Laws/Ops.lean `cells_rising`). -/
abbrev Memory.wf (m : Memory) : Prop := m.length ≤ 2 ^ 32

/-! ### State access (00_scope.md R11) -/

/-- `x[i]` (10_state.md R20). -/
def State.x (s : State) (i : Fin 32) : Word := s.regs[i]

/-- `len = |prog|`. -/
def State.len (s : State) : Nat := s.prog.length

/-- The heap byte at address `a`: every byte of the heap holds 0, and no instruction reads one (20_memory.md R42;
log 6). -/
def State.heapByte (s : State) (a : Nat) : Option Byte := if a < s.heapLen then some 0 else none

/-- `x[i] <- v`. -/
def State.setX (s : State) (i : Fin 32) (v : Word) : State := { s with regs := s.regs.set i v }

/-- `pc <- target`. -/
def State.setPc (s : State) (target : Word) : State := { s with pc := target }

/-- `eqf <- b`. -/
def State.setEqf (s : State) (b : Bool) : State := { s with eqf := b }

/-- `rem <- v`. -/
def State.setRem (s : State) (v : Word) : State := { s with rem := v }

/-- `heap_len <- n`. -/
def State.setHeapLen (s : State) (n : Nat) : State := { s with heapLen := n }

/-- `status <- st`. -/
def State.setStatus (s : State) (st : Status) : State := { s with status := st }

/-- The bytes a step at this state fetches: four, or the fewer that exist (40_fetch_decode_execute.md R101). -/
def State.fetched (s : State) : List Byte := s.prog.fetch4 s.pc.toNat

/-! ### Ending a step (40_fetch_decode_execute.md R106 to R108) -/

/-- `pc <- pc0 + 4`: all four bytes of the instruction are consumed (10_state.md R24). -/
def State.advance (s : State) : State := s.setPc (s.pc + 4)

/-- A completed step that neither jumps nor halts: `pc <- pc0 + 4`, `status <- READY` (R106, R108). -/
def State.continueNext (s : State) : State := s.advance.setStatus .ready

/-- `pc <- pc0 + 4` and a normal halt with status `st` (43_control_flow.md R161, R167). -/
def State.haltAfter (s : State) (st : Status) : State := s.advance.setStatus st

/-- A step that finds `pc >= len`: only the status changes (R102). -/
def State.haltEnd (s : State) : State := s.setStatus .haltedEnd

/-- Taking a fault (60_exceptions.md R201): every write of the step is discarded, `pc` stays `pc0`, the status
becomes FAULTED and the record holds the kind, `pc0`, the bytes fetched and the kind's info. The engine has no
return from a fault: only RESET leaves FAULTED (R210; `hostReset` of HostInterface.lean). -/
def State.raiseFault (s : State) (kind : FaultKind) (info : Int) : State :=
  { s with status := .faulted, fault := some { kind := kind, pc := s.pc, word := s.fetched, info := info } }

/-- A taken jump to `t`, a mathematical integer: it faults outside `[0, len)` (43_control_flow.md R160). -/
def State.jumpTo (s : State) (t : Int) : State :=
  if 0 ≤ t ∧ t < s.len then (s.setPc (BitVec.ofInt 32 t)).setStatus .ready
  else s.raiseFault .pcOutOfBounds t

/-- Growing the heap by `n` bytes (44_heap.md R180). -/
def State.growHeap (s : State) (n : Int) : State :=
  if n < 0 then s.raiseFault .negativeHeapGrowth n
  else if (s.heapLen : Int) + n > s.cfg.heapMax then s.raiseFault .heapExhausted n
  else (s.setHeapLen (s.heapLen + n.toNat)).continueNext

end Sys2Proof.Machine
end

