-- ==== Sys2Proof/Machine/Operands.lean ====
section
/-! DEFINITION. The operand forms of 30_encoding.md R61 to R65: checked register fields and the immediate. -/

namespace Sys2Proof.Machine

/-- `sext_16(h)` (00_scope.md R10): a 16-bit pattern sign-extended to 32 bits (30_encoding.md R65). -/
def sext16 (h : Half) : Word := h.signExtend 32

/-- The check of one register field (40_fetch_decode_execute.md R105): 0 to 31 names a register, anything else
raises RegisterOutOfRange with the value as its info. -/
def withReg (b : Byte) (s : State) (k : Fin 32 → Result) : Result :=
  if h : b.toNat < 32 then k ⟨b.toNat, h⟩ else .next (s.raiseFault .registerOutOfRange b.toNat)

/-- Format R, and the register of format RI: one register field, byte 1. -/
def withR (r : Byte) (s : State) (k : Fin 32 → State) : Result :=
  withReg r s fun i => .next (k i)

/-- Format RR: bytes 1 and 2, checked in that order. -/
def withRR (r1 r2 : Byte) (s : State) (k : Fin 32 → Fin 32 → State) : Result :=
  withReg r1 s fun i => withReg r2 s fun j => .next (k i j)

/-- Format RRR: bytes 1, 2 and 3, checked in that order. -/
def withRRR (r1 r2 r3 : Byte) (s : State) (k : Fin 32 → Fin 32 → Fin 32 → State) : Result :=
  withReg r1 s fun i => withReg r2 s fun j => withReg r3 s fun d => .next (k i j d)

end Sys2Proof.Machine
end

