-- ==== Sys2Proof/Machine/Arithmetic.lean ====
section
/-! DEFINITION. Load-immediate and integer arithmetic (41_arithmetic.md). -/

namespace Sys2Proof.Machine

/-- A three-register operation computed exactly in the integers and wrapped (R137). -/
def wrappedRRR (f : Int → Int → Int) (r1 r2 r3 : Byte) (s : State) : Result :=
  withRRR r1 r2 r3 s fun i j d => (s.setX d (wrap32 (f (s.x i).toInt (s.x j).toInt))).continueNext

/-- A one-register operation computed exactly in the integers and wrapped (R137). -/
def wrappedR (f : Int → Int) (r : Byte) (s : State) : Result :=
  withR r s fun i => (s.setX i (wrap32 (f (s.x i).toInt))).continueNext

/-- Signed division of `x[i]` by `x[j]` into `x[d]` and `rem` (R134, R138): the quotient rounds toward zero, the
remainder has the sign of the dividend. -/
def divide (i j d : Fin 32) (s : State) : State :=
  let a := (s.x i).toInt
  let b := (s.x j).toInt
  if b = 0 then s.raiseFault .divisionByZero j.val
  else if a = -2 ^ 31 ∧ b = -1 then s.raiseFault .divisionOverflow j.val
  else
    let q := a.tdiv b
    ((s.setX d (wrap32 q)).setRem (u32 (a - q * b))).continueNext

/-- LOAD (R130). -/
def execLoad (r : Byte) (imm : Half) (s : State) : Result :=
  withR r s fun i => (s.setX i (sext16 imm)).continueNext

/-- ADD (R131). -/
def execAdd (r1 r2 r3 : Byte) (s : State) : Result := wrappedRRR (fun a b => a + b) r1 r2 r3 s

/-- SUB (R132). -/
def execSub (r1 r2 r3 : Byte) (s : State) : Result := wrappedRRR (fun a b => a - b) r1 r2 r3 s

/-- MUL (R133). -/
def execMul (r1 r2 r3 : Byte) (s : State) : Result := wrappedRRR (fun a b => a * b) r1 r2 r3 s

/-- DIV (R134). -/
def execDiv (r1 r2 r3 : Byte) (s : State) : Result :=
  withRRR r1 r2 r3 s fun i j d => divide i j d s

/-- INC (R135). -/
def execInc (r : Byte) (s : State) : Result := wrappedR (fun a => a + 1) r s

/-- DEC (R136). -/
def execDec (r : Byte) (s : State) : Result := wrappedR (fun a => a - 1) r s

end Sys2Proof.Machine
end

