-- ==== Sys2Proof/Machine/Flags.lean ====
section
/-! DEFINITION. The equal flag: the one flag of the engine, written by the six comparisons only (10_state.md
R27, 42_compare.md R150). -/

namespace Sys2Proof.Machine

/-- The relations of 42_compare.md. -/
inductive Relation where
  | eq | neq | gt | lt | gte | lte
  deriving DecidableEq, Repr

/-- The truth of a relation between two registers, both read as signed `Int32` values (R150 to R156). -/
def Relation.holds (c : Relation) (a b : Word) : Bool :=
  match c with
  | .eq  => decide (a.toInt = b.toInt)
  | .neq => decide (a.toInt ≠ b.toInt)
  | .gt  => decide (a.toInt > b.toInt)
  | .lt  => decide (a.toInt < b.toInt)
  | .gte => decide (a.toInt ≥ b.toInt)
  | .lte => decide (a.toInt ≤ b.toInt)

/-- A comparison: the flag takes the truth of the relation; no register changes (R150). -/
def compareRegs (c : Relation) (r1 r2 : Byte) (s : State) : Result :=
  withRR r1 r2 s fun i j => (s.setEqf (c.holds (s.x i) (s.x j))).continueNext

end Sys2Proof.Machine
end

