-- ==== Sys2Proof/Machine/Comparison.lean ====
section
/-! DEFINITION. The six comparisons (42_compare.md). -/

namespace Sys2Proof.Machine

/-- EQ (R151). -/
def execEq (r1 r2 : Byte) (s : State) : Result := compareRegs .eq r1 r2 s

/-- NEQ (R152). -/
def execNeq (r1 r2 : Byte) (s : State) : Result := compareRegs .neq r1 r2 s

/-- GT (R153). -/
def execGt (r1 r2 : Byte) (s : State) : Result := compareRegs .gt r1 r2 s

/-- LT (R154). -/
def execLt (r1 r2 : Byte) (s : State) : Result := compareRegs .lt r1 r2 s

/-- GTE (R155). -/
def execGte (r1 r2 : Byte) (s : State) : Result := compareRegs .gte r1 r2 s

/-- LTE (R156). -/
def execLte (r1 r2 : Byte) (s : State) : Result := compareRegs .lte r1 r2 s

end Sys2Proof.Machine
end

