-- ==== Sys2Proof/Machine/ControlFlow.lean ====
section
/-! DEFINITION. Control flow, halt and illegal instruction (43_control_flow.md). -/

namespace Sys2Proof.Machine

/-- `pc0 + REL_BASE`, in the integers: the base of the relative jumps (R169). -/
def State.relativeBase (s : State) : Int := s.pc.toNat + s.cfg.relBase

/-- A jump to `x[r]` if the condition holds, else to the next instruction. The register field is checked either
way (R165, R166; 40_fetch_decode_execute.md R105). -/
def jumpIf (cond : Bool) (r : Byte) (s : State) : Result :=
  withR r s fun i => if cond then s.jumpTo (s.x i).toInt else s.continueNext

/-- HLT (R161). -/
def execHlt (s : State) : Result := .next (s.haltAfter .haltedHlt)

/-- JMP (R162). -/
def execJmp (r : Byte) (s : State) : Result :=
  withR r s fun i => s.jumpTo (s.x i).toInt

/-- JMPF (R163). -/
def execJmpf (r : Byte) (s : State) : Result :=
  withR r s fun i => s.jumpTo (s.relativeBase + (s.x i).toInt)

/-- JMPB (R164). -/
def execJmpb (r : Byte) (s : State) : Result :=
  withR r s fun i => s.jumpTo (s.relativeBase - (s.x i).toInt)

/-- JEQ (R165). -/
def execJeq (r : Byte) (s : State) : Result := jumpIf s.eqf r s

/-- JNEQ (R166). -/
def execJneq (r : Byte) (s : State) : Result := jumpIf (!s.eqf) r s

/-- IGL (R167). -/
def execIgl (s : State) : Result := .next (s.haltAfter .haltedIllegal)

end Sys2Proof.Machine
end

