-- ==== Sys2Proof/Machine/Heap.lean ====
section
/-! DEFINITION. Heap allocation (44_heap.md). -/

namespace Sys2Proof.Machine

/-- ALOC (R180). -/
def execAloc (r : Byte) (s : State) : Result :=
  withR r s fun i => s.growHeap (s.x i).toInt

end Sys2Proof.Machine
end

