-- ==== Sys2Proof/Machine/Dispatch.lean ====
section
/-! DEFINITION. The execute phase of 40_fetch_decode_execute.md R100: one arm per instruction. -/

namespace Sys2Proof.Machine

def exec (i : Instr) (s : State) : Host.Outcome State Fault Refusal :=
  match i with
  | .hlt => Sys2Proof.Machine.execHlt s
  | .load r imm => Sys2Proof.Machine.execLoad r imm s
  | .add r1 r2 r3 => Sys2Proof.Machine.execAdd r1 r2 r3 s
  | .sub r1 r2 r3 => Sys2Proof.Machine.execSub r1 r2 r3 s
  | .mul r1 r2 r3 => Sys2Proof.Machine.execMul r1 r2 r3 s
  | .div r1 r2 r3 => Sys2Proof.Machine.execDiv r1 r2 r3 s
  | .jmp r => Sys2Proof.Machine.execJmp r s
  | .jmpf r => Sys2Proof.Machine.execJmpf r s
  | .jmpb r => Sys2Proof.Machine.execJmpb r s
  | .eq r1 r2 => Sys2Proof.Machine.execEq r1 r2 s
  | .neq r1 r2 => Sys2Proof.Machine.execNeq r1 r2 s
  | .gt r1 r2 => Sys2Proof.Machine.execGt r1 r2 s
  | .lt r1 r2 => Sys2Proof.Machine.execLt r1 r2 s
  | .gte r1 r2 => Sys2Proof.Machine.execGte r1 r2 s
  | .lte r1 r2 => Sys2Proof.Machine.execLte r1 r2 s
  | .jeq r => Sys2Proof.Machine.execJeq r s
  | .jneq r => Sys2Proof.Machine.execJneq r s
  | .aloc r => Sys2Proof.Machine.execAloc r s
  | .inc r => Sys2Proof.Machine.execInc r s
  | .dec r => Sys2Proof.Machine.execDec r s
  | .igl => Sys2Proof.Machine.execIgl s

end Sys2Proof.Machine
end

