-- ==== Sys2Proof/Machine/Fetch.lean ====
section
/-! DEFINITION. What a step does before it executes (40_fetch_decode_execute.md R100 to R104), in the order of
priority of 60_exceptions.md R209. -/

namespace Sys2Proof.Machine

/-- What the fetch and decode phases find. -/
inductive Fetched where
  /-- `status = FAULTED`: nothing is fetched (R103) -/
  | sticky
  /-- `pc >= len` (R102) -/
  | endOfProgram
  /-- fewer than four bytes remain, and how many (R101) -/
  | truncated (available : Nat)
  /-- the decoded instruction -/
  | instr (i : Instr)
  deriving DecidableEq, Repr

/-- The fetch and decode phases. -/
def fetchDecode (s : State) : Fetched :=
  if s.status = .faulted then .sticky
  else if s.len ≤ s.pc.toNat then .endOfProgram
  else
    match decode s.cfg s.fetched with
    | .truncated n => .truncated n
    | .instr i _ => .instr i

/-- The state `s` with the bytes `bs` at its pc, ready for a step to fetch them: a FAULTED engine, which fetches
nothing, is made READY (log 12). -/
def State.placeAtPc (s : State) (bs : List Byte) : State :=
  let t := { s with prog := s.prog.place s.pc.toNat bs }
  if s.status = .faulted then { t with status := .ready, fault := none } else t

end Sys2Proof.Machine
end

