-- ==== Sys2Proof/Machine/Step.lean ====
section
/-! DEFINITION. One step of the engine (40_fetch_decode_execute.md R100). -/

namespace Sys2Proof.Machine

/-- The step function of R100. The step's result (Continue or a halt reason) is read off the status it leaves
(R108; `State.result` of HostInterface.lean, log 8). -/
def step (s : State) : Host.Outcome State Fault Refusal :=
  match fetchDecode s with
  | .sticky => .next s
  | .endOfProgram => .next s.haltEnd
  | .truncated n => .next (s.raiseFault .truncatedInstruction n)
  | .instr i => exec i s

/-- The state `s` with the word `w` of the opcode table stored where `step` fetches (log 12, log 21). -/
def State.withFetchWord (s : State) (nbits w : Nat) : State :=
  s.placeAtPc (tableWordBytes nbits w)

end Sys2Proof.Machine
end

