-- ==== Sys2Proof/Machine/HostInterface.lean ====
section
/-! DEFINITION. The commands and read ports through which the host drives the engine (40_fetch_decode_execute.md
R110 to R117, 10_state.md R36), and the codes and results it sees. -/

namespace Sys2Proof.Machine

/-! ### Codes and results -/

/-- The status codes of 10_state.md R31. -/
def Status.code : Status → Nat
  | .ready => 0
  | .haltedHlt => 1
  | .haltedIllegal => 2
  | .haltedEnd => 3
  | .faulted => 4

/-- The fault codes of 60_exceptions.md R200. -/
def FaultKind.code : FaultKind → Nat
  | .registerOutOfRange => 1
  | .pcOutOfBounds => 2
  | .divisionByZero => 3
  | .divisionOverflow => 4
  | .negativeHeapGrowth => 5
  | .heapExhausted => 6
  | .truncatedInstruction => 7

/-- What a step returns (40_fetch_decode_execute.md R107). -/
inductive StepResult where
  | continue
  | haltedHlt
  | haltedIllegal
  | haltedEnd
  | haltedFault (kind : FaultKind)
  deriving DecidableEq, Repr

/-- The result of the step that left state `s` (R107, R108; log 8). It is absent only in a state that says FAULTED
and holds no record, which no command leaves. -/
def State.result (s : State) : Option StepResult :=
  match s.status with
  | .ready => some .continue
  | .haltedHlt => some .haltedHlt
  | .haltedIllegal => some .haltedIllegal
  | .haltedEnd => some .haltedEnd
  | .faulted => s.fault.map fun r => .haltedFault r.kind

/-! ### Commands -/

/-- The error a refused command returns to the host; it is no fault of the engine (60_exceptions.md R220). -/
inductive HostError where
  /-- LOAD-PROGRAM or APPEND past `PROG_MAX` -/
  | programTooLong
  deriving DecidableEq, Repr

/-- What a command answers: a new state, or an error with the state unchanged. -/
inductive Answer where
  | done (s : State)
  | error (e : HostError)
  deriving DecidableEq, Repr

/-- RESET (70_reset_and_hazards.md R230): every component at its reset value. The parameters are the engine's and
stay (log 19). It is also the only way out of FAULTED (60_exceptions.md R210). -/
def hostReset (s : State) : State := State.resetWith s.cfg

/-- LOAD-PROGRAM (R111). -/
def hostLoadProgram (bs : List Byte) (s : State) : Answer :=
  if bs.length ≤ s.cfg.progMax then .done { s with prog := bs, pc := 0 } else .error .programTooLong

/-- APPEND (R112). -/
def hostAppend (bs : List Byte) (s : State) : Answer :=
  if s.len + bs.length ≤ s.cfg.progMax then .done { s with prog := s.prog ++ bs } else .error .programTooLong

/-- The commands of R110 that take one transition. RUN is a repetition of STEP (`hostRun`), and a read port
changes nothing (`State.ports`). -/
inductive Command where
  | reset
  | loadProgram (bs : List Byte)
  | append (bs : List Byte)
  | step
  deriving DecidableEq, Repr

/-- The state after a command: a refused command changes no state (R220). Commands and steps happen one at a time
(20_memory.md R50). -/
def Command.after (c : Command) (s : State) : State :=
  match c with
  | .reset => hostReset s
  | .loadProgram bs => match hostLoadProgram bs s with
    | .done t => t
    | .error _ => s
  | .append bs => match hostAppend bs s with
    | .done t => t
    | .error _ => s
  | .step => match Machine.step s with
    | .next t => t
    | .fault _ => s
    | .refused _ => s

/-- The state after `n` STEP commands (R113). -/
def stepN : Nat → State → State
  | 0, s => s
  | n + 1, s => stepN n (Command.step.after s)

/-- RUN within at most `fuel` steps (R114): repeat STEP until a step returns a halt, that is until a step leaves a
status other than READY. `none`: no step of the first `fuel` has halted. RUN itself has no bound (log 14). -/
def hostRun : Nat → State → Option State
  | 0, _ => none
  | fuel + 1, s =>
    let t := Command.step.after s
    if t.status = .ready then hostRun fuel t else some t

/-- A RUN from `s` has ended, in the end state `t` (R116). -/
def RunEnds (s t : State) : Prop := ∃ fuel, hostRun fuel s = some t

/-- A RUN from `s` never returns (R116). -/
def RunHangs (s : State) : Prop := ∀ fuel, hostRun fuel s = none

/-! ### Read ports -/

/-- What the host can read between steps (10_state.md R36). -/
structure Ports where
  regs    : Vector Word 32
  heapLen : Nat
  len     : Nat
  pc      : Word
  eqf     : Bool
  rem     : Word
  status  : Status
  fault   : Option FaultRecord
  deriving DecidableEq, Repr

/-- The read ports of a state (R36). -/
def State.ports (s : State) : Ports where
  regs    := s.regs
  heapLen := s.heapLen
  len     := s.len
  pc      := s.pc
  eqf     := s.eqf
  rem     := s.rem
  status  := s.status
  fault   := s.fault

end Sys2Proof.Machine
end

