-- ==== Sys2Proof/Machine/Assembler.lean ====
section
/-! DEFINITION. The encoding rules of the host's assembler (30_encoding.md R71 to R79), on source lines already
parsed (SourceText.lean parses them). It is host toolchain, not engine behaviour (00_scope.md R5 (b); log 18). -/

namespace Sys2Proof.Machine

/-- An operand token of R70: a register `$n`, a signed 32-bit integer `#n`, or a label reference `@name`. -/
inductive Operand where
  | reg (index : Byte)
  | int (v : Word)
  | label (name : String)
  deriving DecidableEq, Repr

/-- One instruction line: an optional label declaration, a mnemonic and its operands (R70). -/
structure Line where
  label    : Option String
  mnemonic : String
  operands : List Operand
  deriving DecidableEq, Repr

/-- Why a program does not assemble. -/
inductive AsmError where
  /-- the source text does not have the form of R70 (raised by `assembleText` of SourceText.lean) -/
  | malformedSource
  /-- the operands of a line need more than three bytes (R73) -/
  | tooManyOperandBytes
  /-- a label reference has no declaration (R76) -/
  | unresolvedLabel (name : String)
  /-- a label is declared twice (R76) -/
  | duplicateLabel (name : String)
  deriving DecidableEq, Repr

/-- What assembling gives: bytes, or an error and no bytes. -/
inductive Assembled where
  | bytes (bs : List Byte)
  | error (e : AsmError)
  deriving DecidableEq, Repr

/-- The mnemonic of an operation code (R63, R71): lower case. -/
def Opcode.mnemonic : Opcode → String
  | .hlt  => "hlt"
  | .load => "load"
  | .add  => "add"
  | .sub  => "sub"
  | .mul  => "mul"
  | .div  => "div"
  | .jmp  => "jmp"
  | .jmpf => "jmpf"
  | .jmpb => "jmpb"
  | .eq   => "eq"
  | .neq  => "neq"
  | .gt   => "gt"
  | .lt   => "lt"
  | .gte  => "gte"
  | .lte  => "lte"
  | .jeq  => "jeq"
  | .jneq => "jneq"
  | .aloc => "aloc"
  | .inc  => "inc"
  | .dec  => "dec"
  | .igl  => "igl"

/-- The operation code of a mnemonic: total, an unknown one is IGL, and case matters (R71). -/
def opcodeOfMnemonic (m : String) : Opcode :=
  (Opcode.executable.find? fun op => Opcode.mnemonic op == m).getD .igl

/-- Phase 1: the byte offset of every declared label, four bytes an instruction (R75). The offset is an
unbounded number, also at or beyond 2^32, where R76 stores a `UInt32`: a DESIGN CHOICE (log 22), which the 16 bits
that are encoded do not show. -/
def symbolsFrom (offset : Nat) : List Line → List (String × Nat)
  | [] => []
  | l :: ls =>
    match l.label with
    | some name => (name, offset) :: symbolsFrom (offset + 4) ls
    | none => symbolsFrom (offset + 4) ls

/-- The first label that is declared again further on (R76). -/
def duplicateLabel : List (String × Nat) → Option String
  | [] => none
  | (name, _) :: rest => if rest.any (fun p => p.1 == name) then some name else duplicateLabel rest

/-- The operand bytes of R72. -/
def Operand.emit (symbols : List (String × Nat)) : Operand → Assembled
  | .reg index => .bytes [index]
  | .int v => .bytes [hiByte (v.setWidth 16), loByte (v.setWidth 16)]
  | .label name =>
    match symbols.lookup name with
    | some offset => .bytes [hiByte (BitVec.ofNat 16 offset), loByte (BitVec.ofNat 16 offset)]
    | none => .error (.unresolvedLabel name)

/-- The operand bytes of a line, in source order (R72). -/
def emitOperands (symbols : List (String × Nat)) : List Operand → Assembled
  | [] => .bytes []
  | o :: os =>
    match o.emit symbols with
    | .error e => .error e
    | .bytes bs =>
      match emitOperands symbols os with
      | .error e => .error e
      | .bytes rest => .bytes (bs ++ rest)

/-- The four bytes of a line: the opcode byte, the operand bytes placed by position whatever the mnemonic (R74),
zero padding (R73). -/
def assembleLine (c : Config) (symbols : List (String × Nat)) (l : Line) : Assembled :=
  match emitOperands symbols l.operands with
  | .error e => .error e
  | .bytes bs =>
    if bs.length ≤ 3 then
      .bytes (c.opcodes.byte (opcodeOfMnemonic l.mnemonic) :: (bs ++ List.replicate (3 - bs.length) 0))
    else .error .tooManyOperandBytes

/-- Phase 2: the bytes of the lines, one after another. -/
def assembleLines (c : Config) (symbols : List (String × Nat)) : List Line → Assembled
  | [] => .bytes []
  | l :: ls =>
    match assembleLine c symbols l with
    | .error e => .error e
    | .bytes bs =>
      match assembleLines c symbols ls with
      | .error e => .error e
      | .bytes rest => .bytes (bs ++ rest)

/-- Assemble a program: phase 1, the duplicate check, phase 2 (R72 to R76). -/
def assemble (c : Config) (ls : List Line) : Assembled :=
  let symbols := symbolsFrom 0 ls
  match duplicateLabel symbols with
  | some name => .error (.duplicateLabel name)
  | none => assembleLines c symbols ls

/-- The canonical operands of an instruction (R71). -/
def canonicalOperands : Instr → List Operand
  | .hlt => []
  | .load r imm => [.reg r, .int (imm.signExtend 32)]
  | .add r1 r2 r3 => [.reg r1, .reg r2, .reg r3]
  | .sub r1 r2 r3 => [.reg r1, .reg r2, .reg r3]
  | .mul r1 r2 r3 => [.reg r1, .reg r2, .reg r3]
  | .div r1 r2 r3 => [.reg r1, .reg r2, .reg r3]
  | .jmp r => [.reg r]
  | .jmpf r => [.reg r]
  | .jmpb r => [.reg r]
  | .eq r1 r2 => [.reg r1, .reg r2]
  | .neq r1 r2 => [.reg r1, .reg r2]
  | .gt r1 r2 => [.reg r1, .reg r2]
  | .lt r1 r2 => [.reg r1, .reg r2]
  | .gte r1 r2 => [.reg r1, .reg r2]
  | .lte r1 r2 => [.reg r1, .reg r2]
  | .jeq r => [.reg r]
  | .jneq r => [.reg r]
  | .aloc r => [.reg r]
  | .inc r => [.reg r]
  | .dec r => [.reg r]
  | .igl => []

/-- The canonical source line of an instruction (R71). -/
def canonicalLine (i : Instr) : Line where
  label := none
  mnemonic := Opcode.mnemonic i.opcode
  operands := canonicalOperands i

end Sys2Proof.Machine
end

