-- ==== Sys2Proof/Machine/SourceText.lean ====
section
/-! DEFINITION. The source grammar of the host's assembler (30_encoding.md R70): from characters to the lines that
Assembler.lean encodes. It is host toolchain, not engine behaviour (00_scope.md R5 (b)). What R70 leaves open (the
whitespace characters, the end of a line, the characters of a name, a colon inside a token, a number out of range)
is settled in log 18. -/

namespace Sys2Proof.Machine

/-- The pieces of `cs` between the characters that `p` picks out. -/
def splitOnChar (p : Char → Bool) : List Char → List (List Char)
  | [] => [[]]
  | c :: cs =>
    if p c then [] :: splitOnChar p cs
    else
      match splitOnChar p cs with
      | [] => [[c]]
      | piece :: rest => (c :: piece) :: rest

/-- The tokens of a line: what whitespace separates. Leading, trailing and repeated whitespace is insignificant
(R70). That whitespace is space, tab, carriage return and line feed is a DESIGN CHOICE (log 18): R70 names no
characters. -/
def tokensOf (line : List Char) : List (List Char) :=
  (splitOnChar Char.isWhitespace line).filter fun t => !t.isEmpty

/-- A character of a label name or a mnemonic (log 18). -/
def isNameChar (c : Char) : Bool := c.isAlphanum || c == '_'

/-- A label name or a mnemonic: one or more name characters (log 18). -/
def parseName (cs : List Char) : Option String :=
  if !cs.isEmpty && cs.all isNameChar then some (String.ofList cs) else none

/-- An unsigned decimal number: one or more digits. -/
def parseNat (cs : List Char) : Option Nat :=
  if !cs.isEmpty && cs.all Char.isDigit then
    some (cs.foldl (fun n c => 10 * n + (c.toNat - '0'.toNat)) 0)
  else none

/-- An optionally signed decimal number. -/
def parseInt : List Char → Option Int
  | '-' :: cs => (parseNat cs).map fun n => -(n : Int)
  | '+' :: cs => (parseNat cs).map fun n => (n : Int)
  | cs => (parseNat cs).map fun n => (n : Int)

/-- An operand token: `$<digits>` with a byte value (00_scope.md R8), `#<digits>`, optionally signed, with a signed
32-bit value, or `@<name>`. `none`: malformed. -/
def parseOperand : List Char → Option Operand
  | '$' :: cs =>
    match parseNat cs with
    | some n => if n < 256 then some (.reg (BitVec.ofNat 8 n)) else none
    | none => none
  | '#' :: cs =>
    match parseInt cs with
    | some v => if -2 ^ 31 ≤ v ∧ v < 2 ^ 31 then some (.int (BitVec.ofInt 32 v)) else none
    | none => none
  | '@' :: cs => (parseName cs).map .label
  | _ => none

/-- A mnemonic and its operands, at most three. -/
def parseInstruction (label : Option String) : List (List Char) → Option Line
  | [] => none
  | m :: operands =>
    if operands.length ≤ 3 then
      match parseName m, operands.mapM parseOperand with
      | some mnemonic, some os => some { label := label, mnemonic := mnemonic, operands := os }
      | _, _ => none
    else none

/-- A line that is not blank: an optional label declaration, which its colon ends, then an instruction. -/
def parseTokens : List (List Char) → Option Line
  | [] => none
  | t :: ts =>
    match splitOnChar (· == ':') t with
    | [_] => parseInstruction none (t :: ts)
    | [name, after] =>
      match parseName name with
      | some l => parseInstruction (some l) (if after.isEmpty then ts else after :: ts)
      | none => none
    | _ => none

/-- The lines of a program: blank ones are insignificant, and one malformed line fails the whole parse, with no
partial result (R70). That a line ends at a line feed only is a DESIGN CHOICE (log 18). -/
def parseProgram (source : List Char) : Option (List Line) :=
  (((splitOnChar (· == '\n') source).map tokensOf).filter fun ts => !ts.isEmpty).mapM parseTokens

/-- Assemble source text (R70 to R79): the bytes of the program, or an error and no bytes. -/
def assembleText (c : Config) (source : String) : Assembled :=
  match parseProgram source.toList with
  | none => .error .malformedSource
  | some ls => assemble c ls

end Sys2Proof.Machine
end

