-- ==== Sys2Proof/Safety.lean ====
section
/-! DEFINITION. What counts as a legal state and a safe run, and the words the statements use. -/

namespace Sys2Proof.Machine

/-! ### Legal states -/

/-- A fault record holds what 60_exceptions.md R200 says its kind records: the range of `fault.info`, and the
number of bytes fetched (R201). -/
def FaultRecord.wf (r : FaultRecord) : Bool :=
  match r.kind with
  | .registerOutOfRange => decide (r.word.length = 4 ∧ 32 ≤ r.info ∧ r.info ≤ 255)
  | .pcOutOfBounds => decide (r.word.length = 4)
  | .divisionByZero => decide (r.word.length = 4 ∧ 0 ≤ r.info ∧ r.info ≤ 31)
  | .divisionOverflow => decide (r.word.length = 4 ∧ 0 ≤ r.info ∧ r.info ≤ 31)
  | .negativeHeapGrowth => decide (r.word.length = 4 ∧ -2 ^ 31 ≤ r.info ∧ r.info < 0)
  | .heapExhausted => decide (r.word.length = 4 ∧ 0 < r.info ∧ r.info < 2 ^ 31)
  | .truncatedInstruction => decide (1 ≤ r.word.length ∧ r.word.length ≤ 3 ∧ r.info = r.word.length)

/-- A legal state: legal parameters; `len <= PROG_MAX` (10_state.md R30); `pc <= len` (R24, R26);
`heap_len <= HEAP_MAX` (R29); a fault record exactly while FAULTED (R32), and a well-formed one. -/
abbrev State.Inv (s : State) : Prop :=
  s.cfg.WellFormed ∧ s.len ≤ s.cfg.progMax ∧ s.pc.toNat ≤ s.len ∧ s.heapLen ≤ s.cfg.heapMax ∧
    (s.status = .faulted ↔ s.fault.isSome = true) ∧ s.fault.all FaultRecord.wf = true

/-- The states an engine can be in: RESET's, with any legal parameters, and what host commands, steps among
them, make of those in any order (20_memory.md R50). -/
inductive Reachable : State → Prop where
  | created (c : Config) (h : c.WellFormed) : Reachable (State.resetWith c)
  | command (cmd : Command) (s : State) (h : Reachable s) : Reachable (cmd.after s)

/-- A safe run of `n` steps: none of them leaves the engine FAULTED. -/
def RunsSafely (n : Nat) (s : State) : Prop := ∀ k, k ≤ n → (stepN k s).status ≠ .faulted

/-! ### Words of the statements -/

/-- The state that 60_exceptions.md R201 describes, written out: `s` with status FAULTED and the record of a
fault of kind `k` with info `info`, raised at `pc` on the bytes at `pc`. -/
def State.faultedBy (s : State) (k : FaultKind) (info : Int) : State :=
  { s with status := .faulted
           fault := some { kind := k, pc := s.pc, word := (s.prog.drop s.pc.toNat).take 4, info := info } }

/-- The first register field, in byte order, that names no register (40_fetch_decode_execute.md R105). -/
def firstBadField (fields : List Byte) : Option Byte := fields.find? fun b => decide (32 ≤ b.toNat)

/-- `i` on state `s` raises RegisterOutOfRange when one of the register fields `fields` holds 32 to 255, with the
first such value as the info (R105, 60_exceptions.md R202). -/
def BadFieldFaults (i : Instr) (fields : List Byte) (s : State) : Prop :=
  ∀ b, firstBadField fields = some b → exec i s = .next (s.faultedBy .registerOutOfRange b.toNat)

/-- The outcome of a taken jump to the integer `t`: `pc <- t` inside `[0, len)`, else PcOutOfBounds
(43_control_flow.md R160). -/
def JumpsTo (i : Instr) (s : State) (t : Int) : Prop :=
  (0 ≤ t → t < s.prog.length → exec i s = .next { s with pc := BitVec.ofInt 32 t, status := .ready }) ∧
    (t < 0 ∨ s.prog.length ≤ t → exec i s = .next (s.faultedBy .pcOutOfBounds t))

/-- The four bytes at `a` are `b0 b1 b2 b3` (20_memory.md R41, R45). -/
abbrev Memory.Holds4 (m : Memory) (a : Nat) (b0 b1 b2 b3 : Byte) : Prop :=
  m.read a = some b0 ∧ m.read (a + 1) = some b1 ∧ m.read (a + 2) = some b2 ∧ m.read (a + 3) = some b3

/-- The next step of `s` executes `i`: the engine is not FAULTED and the four bytes at `pc` decode to `i`
(40_fetch_decode_execute.md R100). -/
def State.Runs (s : State) (i : Instr) : Prop :=
  s.status ≠ .faulted ∧ ∃ b0 b1 b2 b3, s.prog.Holds4 s.pc.toNat b0 b1 b2 b3 ∧ decodeWord s.cfg b0 b1 b2 b3 = i

/-- The register an instruction writes, as the byte of its field (10_state.md R22). -/
def destField : Instr → Option Byte
  | .load r _ => some r
  | .add _ _ r3 => some r3
  | .sub _ _ r3 => some r3
  | .mul _ _ r3 => some r3
  | .div _ _ r3 => some r3
  | .inc r => some r
  | .dec r => some r
  | .hlt | .igl | .jmp _ | .jmpf _ | .jmpb _ | .jeq _ | .jneq _ | .aloc _ => none
  | .eq _ _ | .neq _ _ | .gt _ _ | .lt _ _ | .gte _ _ | .lte _ _ => none

/-- The registers an instruction reads, as the bytes of its fields (10_state.md R22). -/
def sourceFields : Instr → List Byte
  | .add r1 r2 _ => [r1, r2]
  | .sub r1 r2 _ => [r1, r2]
  | .mul r1 r2 _ => [r1, r2]
  | .div r1 r2 _ => [r1, r2]
  | .eq r1 r2 => [r1, r2]
  | .neq r1 r2 => [r1, r2]
  | .gt r1 r2 => [r1, r2]
  | .lt r1 r2 => [r1, r2]
  | .gte r1 r2 => [r1, r2]
  | .lte r1 r2 => [r1, r2]
  | .jmp r => [r]
  | .jmpf r => [r]
  | .jmpb r => [r]
  | .jeq r => [r]
  | .jneq r => [r]
  | .aloc r => [r]
  | .inc r => [r]
  | .dec r => [r]
  | .hlt | .igl | .load _ _ => []

/-- An instruction that takes a jump when the equal flag is `eqf`: JMP, JMPF and JMPB always, JEQ on a set flag,
JNEQ on a clear one (43_control_flow.md R160, R162 to R166). -/
def takesJump (eqf : Bool) : Instr → Bool
  | .jmp _ | .jmpf _ | .jmpb _ => true
  | .jeq _ => eqf
  | .jneq _ => !eqf
  | .hlt | .igl | .load _ _ | .aloc _ | .inc _ | .dec _ => false
  | .add _ _ _ | .sub _ _ _ | .mul _ _ _ | .div _ _ _ => false
  | .eq _ _ | .neq _ _ | .gt _ _ | .lt _ _ | .gte _ _ | .lte _ _ => false

/-- The six comparisons (42_compare.md). -/
def isComparison : Instr → Bool
  | .eq _ _ | .neq _ _ | .gt _ _ | .lt _ _ | .gte _ _ | .lte _ _ => true
  | .hlt | .igl | .load _ _ | .aloc _ | .inc _ | .dec _ => false
  | .jmp _ | .jmpf _ | .jmpb _ | .jeq _ | .jneq _ => false
  | .add _ _ _ | .sub _ _ _ | .mul _ _ _ | .div _ _ _ => false

/-- The two conditional jumps, the readers of the equal flag (10_state.md R27). -/
def readsFlag : Instr → Bool
  | .jeq _ | .jneq _ => true
  | .jmp _ | .jmpf _ | .jmpb _ | .hlt | .igl | .load _ _ | .aloc _ | .inc _ | .dec _ => false
  | .add _ _ _ | .sub _ _ _ | .mul _ _ _ | .div _ _ _ => false
  | .eq _ _ | .neq _ _ | .gt _ _ | .lt _ _ | .gte _ _ | .lte _ _ => false

/-- The bytes a step at `s` adds to the heap: `x[r]` where it executes an ALOC of a register that is not negative
and stays within `HEAP_MAX`, else 0 (44_heap.md R180, R181). -/
def State.alocGrowth (s : State) : Nat :=
  match fetchDecode s with
  | .instr (.aloc r) =>
    if h : r.toNat < 32 then
      if 0 ≤ s.regs[r.toNat].toInt ∧ s.heapLen + s.regs[r.toNat].toInt ≤ s.cfg.heapMax then
        s.regs[r.toNat].toInt.toNat
      else 0
    else 0
  | _ => 0

/-- The sum of `alocGrowth` over the first `n` steps from `s`. -/
def totalAlocGrowth : Nat → State → Nat
  | 0, _ => 0
  | n + 1, s => s.alocGrowth + totalAlocGrowth n (Command.step.after s)

end Sys2Proof.Machine
end

