-- ==== Sys2Proof/Certificates/Slice0/Obligations.lean ====
section
/-! DEFINITION. The statements for the provers. Each is a rule of spec/, or rests on the sections its entry in
OBLIGATIONS.json cites. `exec` is the execute phase of one instruction, `step` one step of the engine. -/

open Sys2Proof Sys2Proof.Machine

/-- R34, R231 (decisions D16, D18, D20, D36): the reset table, for RESET from any state and for a created engine. The clause that RESET gives the state of a new engine with the same parameters is the model's choice (log 19). -/
def Obligations.ResetLeavesTheListedValues : Prop :=
  (∀ s : State,
    (∀ (k : Nat) (hk : k < 32), (hostReset s).regs[k] = 0) ∧ (hostReset s).pc = 0 ∧ (hostReset s).heapLen = 0 ∧
      (hostReset s).prog = [] ∧ (hostReset s).rem = 0 ∧ (hostReset s).eqf = false ∧
      (hostReset s).status = .ready ∧ (hostReset s).fault = none ∧ hostReset s = State.resetWith s.cfg) ∧
    State.reset = hostReset State.reset

/-- The reset state meets the invariant that every step keeps. The parameters in it are the reference values (log 2, the model's choice). -/
def Obligations.ResetIsLegal : Prop :=
  State.reset.Inv

/-- The invariant of 10_state.md (R24, R26, R29, R30, R32) and of the fault table (R200) is kept by every step. That PROG_MAX is below 2^32 is read from R26 and R43 (log 3). -/
def Obligations.StepKeepsLegalStates : Prop :=
  ∀ s t : State, s.Inv → step s = .next t → t.Inv

/-- The host's commands other than STEP keep the invariant too (R111, R112, R220, R230). -/
def Obligations.HostCommandsKeepLegalStates : Prop :=
  ∀ (s : State) (bs : List Byte), s.Inv →
    (Command.reset.after s).Inv ∧ ((Command.loadProgram bs).after s).Inv ∧ ((Command.append bs).after s).Inv

/-- R50: steps and host commands form one total order; the invariant holds after any of them, for any program bytes. That the length is below 2^32 rests on PROG_MAX below 2^32, which the model infers (log 3). -/
def Obligations.EveryReachableStateIsLegal : Prop :=
  ∀ s : State, Reachable s → s.Inv ∧ s.pc.toNat ≤ s.prog.length ∧ s.prog.length < 2 ^ 32 ∧ s.heapLen ≤ s.cfg.heapMax

/-- R60 to R66: no bit of an encoding is dropped, for all 21 instructions, every operand byte and immediate, and every legal OPCODE_OF. -/
def Obligations.DecodeOfEncodeGivesBack : Prop :=
  ∀ (c : Config) (i : Instr) (rest : List Byte), c.WellFormed →
    decode c (encode c i ++ rest) = .instr i rest

/-- R61, R67: the other direction of the round trip. -/
def Obligations.CanonicalWordsEncodeBack : Prop :=
  ∀ (c : Config) (b0 b1 b2 b3 : Byte), c.WellFormed →
    (match (decodeOpcode c b0).format with
      | .n => b1 = 0 ∧ b2 = 0 ∧ b3 = 0
      | .r => b2 = 0 ∧ b3 = 0
      | .rr => b3 = 0
      | .ri | .rrr => True) →
    (decodeOpcode c b0 = .igl → b0 = c.opcodes.igl) →
    encode c (decodeWord c b0 b1 b2 b3) = [b0, b1, b2, b3]

/-- R66, for every legal OPCODE_OF. -/
def Obligations.DecoderIsTotalOnOpcodeBytes : Prop :=
  ∀ (c : Config) (b0 : Byte), c.WellFormed →
    (∀ op : Opcode, op ≠ .igl → (decodeOpcode c b0 = op ↔ c.opcodes.byte op = b0)) ∧
    (decodeOpcode c b0 = .igl ↔ ∀ op : Opcode, op ≠ .igl → c.opcodes.byte op ≠ b0) ∧
    (∀ (b1 b2 b3 : Byte) (rest : List Byte), ∃ i : Instr,
      decode c (b0 :: b1 :: b2 :: b3 :: rest) = .instr i rest ∧ i.opcode = decodeOpcode c b0)

/-- R67: "an instruction with nonzero padding executes exactly as the same instruction with zero padding"; R44: no instruction reads prog as data. -/
def Obligations.PaddingIsIgnored : Prop :=
  (∀ (c : Config) (b0 b1 b2 b3 p1 p2 p3 : Byte),
    match (decodeOpcode c b0).format with
    | .n => decodeWord c b0 b1 b2 b3 = decodeWord c b0 p1 p2 p3
    | .r => decodeWord c b0 b1 b2 b3 = decodeWord c b0 b1 p2 p3
    | .rr => decodeWord c b0 b1 b2 b3 = decodeWord c b0 b1 b2 p3
    | .ri | .rrr => True) ∧
  (∀ (i : Instr) (s t : State) (m : Memory), m.length = s.prog.length → exec i s = .next t →
    ∃ f : Option FaultRecord, exec i { s with prog := m } = .next { t with prog := m, fault := f } ∧
      f.map (fun r => (r.kind, r.pc, r.info)) = t.fault.map (fun r => (r.kind, r.pc, r.info)))

/-- R63, R80 and the vectors of 95_test_vectors.md, one word of each family, under the reference assignment. -/
def Obligations.ReferenceWordsDecode : Prop :=
  decode Config.reference [0x01, 0x00, 0x00, 0x64] = .instr (.load 0 100) [] ∧
    decode Config.reference [0x00, 0x00, 0x00, 0x00] = .instr .hlt [] ∧
    decode Config.reference [0x05, 0x00, 0x01, 0x02] = .instr (.div 0 1 2) [] ∧
    decode Config.reference [0x01, 0x1F, 0xFF, 0xFF] = .instr (.load 31 0xFFFF) [] ∧
    decode Config.reference [0x12, 0x00, 0xFF, 0xFF] = .instr (.inc 0) [] ∧
    decode Config.reference [0x09, 0x01, 0x02, 0x00] = .instr (.eq 1 2) [] ∧
    decode Config.reference [0x08, 0x03, 0x00, 0x00] = .instr (.jmpb 3) [] ∧
    decode Config.reference [0x11, 0x06, 0x00, 0x00] = .instr (.aloc 6) [] ∧
    decode Config.reference [0x80, 0x01, 0x02, 0x03] = .instr .igl []

/-- R100, R101, R104: the step adds nothing around the execution of the decoded instruction. -/
def Obligations.StepExecutesTheDecodedInstruction : Prop :=
  ∀ (s : State) (b0 b1 b2 b3 : Byte) (i : Instr) (rest : List Byte), s.status ≠ .faulted →
    s.prog.Holds4 s.pc.toNat b0 b1 b2 b3 →
    decode s.cfg [b0, b1, b2, b3] = .instr i rest →
    step s = exec i s

/-- R60, R66, R100: encoding, fetch and decode composed, for every instruction and every legal OPCODE_OF. -/
def Obligations.EncodedInstructionAtPcExecutes : Prop :=
  ∀ (s : State) (i : Instr) (rest : List Byte), s.cfg.WellFormed → s.status ≠ .faulted →
    s.prog.drop s.pc.toNat = encode s.cfg i ++ rest → step s = exec i s

/-- R102 (decision D31); the second clause: the check is made at the start of the step, so a step that executes an instruction returns its own result. -/
def Obligations.EndOfProgramWritesOnlyStatus : Prop :=
  ∀ s : State, s.status ≠ .faulted →
    (s.prog.length ≤ s.pc.toNat →
      step s = .next { s with status := .haltedEnd } ∧
      State.result { s with status := .haltedEnd } = some .haltedEnd) ∧
    (∀ t : State, s.pc.toNat < s.prog.length → step s = .next t → t.result ≠ some .haltedEnd)

/-- R208 (decision D12), with the record of R101 and R200. -/
def Obligations.TruncatedFetchFaults : Prop :=
  ∀ s : State, s.status ≠ .faulted → s.pc.toNat < s.prog.length → s.prog.length < s.pc.toNat + 4 →
    step s = .next { s with
      status := .faulted
      fault := some { kind := .truncatedInstruction, pc := s.pc, word := s.prog.drop s.pc.toNat,
                      info := (s.prog.length : Int) - s.pc.toNat } }

/-- R103, R210 (decision D9), over every sequence of commands. -/
def Obligations.FaultIsStickyUntilReset : Prop :=
  ∀ s : State, s.status = .faulted →
    step s = .next s ∧ RunEnds s s ∧ s.result = s.fault.map (fun r => .haltedFault r.kind) ∧
    (∀ cmds : List Command, Command.reset ∉ cmds →
      (cmds.foldl (fun t c => c.after t) s).status = .faulted ∧
      (cmds.foldl (fun t c => c.after t) s).fault = s.fault) ∧
    (Command.reset.after s).status = .ready ∧ (Command.reset.after s).fault = none

/-- R107: no instruction is refused and no step stops outside the engine's own states. -/
def Obligations.EveryStepReturnsOneResult : Prop :=
  (∀ s : State, ∃ t : State, step s = .next t ∧ (s.Inv →
    t.result = some .continue ∨ t.result = some .haltedHlt ∨ t.result = some .haltedIllegal ∨
    t.result = some .haltedEnd ∨ ∃ r, t.fault = some r ∧ t.result = some (.haltedFault r.kind))) ∧
  (∀ (i : Instr) (s : State), ∃ t : State, exec i s = .next t)

/-- R201 (decisions D8, D20), for every step of every state. -/
def Obligations.FaultsArePrecise : Prop :=
  ∀ s t : State, s.status ≠ .faulted → step s = .next t → t.status = .faulted →
    (∃ (k : FaultKind) (n : Int),
      t = { s with status := .faulted
                   fault := some { kind := k, pc := s.pc, word := (s.prog.drop s.pc.toNat).take 4, info := n } } ∧
      t.result = some (.haltedFault k) ∧
      (k = .truncatedInstruction ↔ s.prog.length < s.pc.toNat + 4)) ∧
    step t = .next t

/-- R108 (decision D20), with the causes of R102, R161, R167. -/
def Obligations.StatusTellsTheResult : Prop :=
  ∀ s t : State, s.status ≠ .faulted → step s = .next t →
    (t.status = .haltedEnd ↔ s.prog.length ≤ s.pc.toNat) ∧
    (t.status = .haltedHlt ↔ s.Runs .hlt) ∧
    (t.status = .haltedIllegal ↔ s.Runs .igl) ∧
    (t.status = .ready → ∃ i, s.Runs i ∧ i ≠ .hlt ∧ i ≠ .igl) ∧
    (t.status = .ready ↔ t.result = some .continue) ∧
    (t.status = .haltedHlt ↔ t.result = some .haltedHlt) ∧
    (t.status = .haltedIllegal ↔ t.result = some .haltedIllegal) ∧
    (t.status = .haltedEnd ↔ t.result = some .haltedEnd) ∧
    (t.status = .faulted ↔ ∃ k, t.result = some (.haltedFault k))

/-- R109 (decisions D10, D11). -/
def Obligations.NormalHaltsAreNotSticky : Prop :=
  (∀ (s : State) (st : Status), s.status ≠ .faulted → st ≠ .faulted → step { s with status := st } = step s) ∧
  (∀ s t : State, s.Runs .hlt ∨ s.Runs .igl → step s = .next t → t.pc = s.pc + 4) ∧
  (∀ s t : State, s.status ≠ .faulted → step s = .next t → t.status = .haltedEnd → step t = .next t)

/-- R105, R202 (decisions D7, D21). -/
def Obligations.RegisterFieldsAreCheckedFirst : Prop :=
  (∀ (c : Config) (b0 b1 b2 b3 : Byte), (decodeWord c b0 b1 b2 b3).regFields =
    match (decodeOpcode c b0).format with
    | .n => []
    | .ri | .r => [b1]
    | .rr => [b1, b2]
    | .rrr => [b1, b2, b3]) ∧
  (∀ (i : Instr) (s : State), BadFieldFaults i i.regFields s) ∧
  (∀ (i : Instr) (s t : State), firstBadField i.regFields = none → s.fault = none → exec i s = .next t →
    ∀ r, t.fault = some r → r.kind ≠ .registerOutOfRange)

/-- R22: the register frame of all 21 instructions, and that no other register is read. -/
def Obligations.RegistersReadAndWrittenByInstruction : Prop :=
  ∀ (i : Instr) (s t : State) (k : Nat) (hk : k < 32), exec i s = .next t →
    ((∀ d, destField i = some d → d.toNat ≠ k) → t.regs[k] = s.regs[k]) ∧
    ((∀ r ∈ sourceFields i, r.toNat ≠ k) → ∀ v : Word, ∃ w : Word, (w = v ∨ w = t.regs[k]) ∧
      exec i { s with regs := s.regs.set k v } = .next { t with regs := t.regs.set k w })

/-- R27 (decisions D16, D29): the flag's frame and its readers, for all 21 instructions. -/
def Obligations.EqualFlagWrittenByComparisonsOnly : Prop :=
  (∀ (i : Instr) (s t : State), isComparison i = false → exec i s = .next t → t.eqf = s.eqf) ∧
  (∀ (s t : State) (r1 r2 : Byte) (h1 : r1.toNat < 32) (h2 : r2.toNat < 32),
    (exec (.eq r1 r2) s = .next t → (t.eqf = true ↔ s.regs[r1.toNat].toInt = s.regs[r2.toNat].toInt)) ∧
    (exec (.neq r1 r2) s = .next t → (t.eqf = true ↔ s.regs[r1.toNat].toInt ≠ s.regs[r2.toNat].toInt)) ∧
    (exec (.gt r1 r2) s = .next t → (t.eqf = true ↔ s.regs[r1.toNat].toInt > s.regs[r2.toNat].toInt)) ∧
    (exec (.lt r1 r2) s = .next t → (t.eqf = true ↔ s.regs[r1.toNat].toInt < s.regs[r2.toNat].toInt)) ∧
    (exec (.gte r1 r2) s = .next t → (t.eqf = true ↔ s.regs[r1.toNat].toInt ≥ s.regs[r2.toNat].toInt)) ∧
    (exec (.lte r1 r2) s = .next t → (t.eqf = true ↔ s.regs[r1.toNat].toInt ≤ s.regs[r2.toNat].toInt))) ∧
  (∀ (i : Instr) (s t : State) (b : Bool), readsFlag i = false → exec i s = .next t →
    ∃ e : Bool, exec i { s with eqf := b } = .next { t with eqf := e }) ∧
  (∀ s : State, (hostReset s).eqf = false)

/-- R28 (decisions D5, D16), over runs of any length. -/
def Obligations.RemainderInfluencesNoRun : Prop :=
  (∀ (i : Instr) (s t : State), exec i s = .next t → t.rem ≠ s.rem → ∃ r1 r2 r3, i = .div r1 r2 r3) ∧
  (∀ (n : Nat) (s : State) (v : Word), ∃ w : Word, stepN n { s with rem := v } = { stepN n s with rem := w }) ∧
  (∀ s : State, s.ports.rem = s.rem ∧ (hostReset s).rem = 0)

/-- R181, over runs of any length. -/
def Obligations.HeapLengthIsTheSumOfAllocations : Prop :=
  (∀ (n : Nat) (s : State), (stepN n s).heapLen = s.heapLen + totalAlocGrowth n s) ∧
  (∀ (s : State) (bs : List Byte), ((Command.loadProgram bs).after s).heapLen = s.heapLen ∧
    ((Command.append bs).after s).heapLen = s.heapLen ∧ (Command.reset.after s).heapLen = 0)

/-- R53, over runs of any length and every program address. That the parameters do not change is the model's own (log 1). -/
def Obligations.NoStepWritesTheProgram : Prop :=
  (∀ (n : Nat) (s : State), (∀ a : Nat, (stepN n s).prog.read a = s.prog.read a) ∧
    (stepN n s).prog.length = s.prog.length ∧ (stepN n s).cfg = s.cfg) ∧
  (∀ (s t : State) (bs : List Byte), hostLoadProgram bs s = .done t →
    t.fetched = bs.take 4 ∧ ∀ a : Nat, t.prog.read a = bs[a]?) ∧
  (∀ (s t : State) (bs : List Byte), hostAppend bs s = .done t →
    t.pc = s.pc ∧ (∀ a : Nat, a < s.prog.length → t.prog.read a = s.prog.read a) ∧
    (∀ k : Nat, t.prog.read (s.prog.length + k) = bs[k]?) ∧
    t.fetched = ((s.prog ++ bs).drop s.pc.toNat).take 4 ∧ (∀ i : Instr, s.Runs i → t.Runs i))

/-- R111 (decision D19), R220 for the refusal. -/
def Obligations.LoadProgramReplacesTheBuffer : Prop :=
  ∀ (s : State) (bs : List Byte),
    (bs.length ≤ s.cfg.progMax → hostLoadProgram bs s = .done { s with prog := bs, pc := 0 } ∧
      (Command.loadProgram bs).after s = { s with prog := bs, pc := 0 }) ∧
    (s.cfg.progMax < bs.length → hostLoadProgram bs s = .error .programTooLong ∧
      (Command.loadProgram bs).after s = s)

/-- R112 (decision D19), R220 for the refusal. -/
def Obligations.AppendExtendsTheBuffer : Prop :=
  ∀ (s : State) (bs : List Byte),
    (s.prog.length + bs.length ≤ s.cfg.progMax → hostAppend bs s = .done { s with prog := s.prog ++ bs } ∧
      (Command.append bs).after s = { s with prog := s.prog ++ bs } ∧
      (s.pc.toNat < s.prog.length →
        ((Command.append bs).after s).prog.read s.pc.toNat = s.prog.read s.pc.toNat)) ∧
    (s.cfg.progMax < s.prog.length + bs.length → hostAppend bs s = .error .programTooLong ∧
      (Command.append bs).after s = s)

/-- R237: "A host that appends after a HALTED_END resumes the program at the first appended instruction if `pc` equals the old `len`" (marked as derived there). -/
def Obligations.AppendAfterEndResumes : Prop :=
  ∀ (s t u : State) (bs rest : List Byte) (i : Instr), s.status ≠ .faulted → s.pc.toNat = s.prog.length →
    step s = .next t → hostAppend bs t = .done u → decode s.cfg bs = .instr i rest →
    t.status = .haltedEnd ∧ step u = exec i u ∧ u = { s with status := .haltedEnd, prog := s.prog ++ bs }

/-- R114 (decision D30); that a RUN is modelled with fuel is the model's own form (log 14), and this statement does not mention it. -/
def Obligations.RunReturnsAtTheFirstHalt : Prop :=
  (∀ s t : State, RunEnds s t ↔ ∃ k : Nat, t = stepN (k + 1) s ∧ t.status ≠ .ready ∧
    ∀ j : Nat, j < k → (stepN (j + 1) s).status = .ready) ∧
  (∀ s t u : State, RunEnds s t → RunEnds s u → t = u) ∧
  (∀ s : State, RunHangs s ↔ ∀ k : Nat, (stepN (k + 1) s).status = .ready)

/-- R162: "`x[r] = pc0` loops on itself forever (no fault)"; R114, R240. -/
def Obligations.SelfJumpRunsForever : Prop :=
  ∀ (s : State) (r : Byte) (hr : r.toNat < 32), s.Runs (.jmp r) → s.regs[r.toNat].toInt = s.pc.toNat →
    RunHangs s ∧ ∀ n : Nat, stepN (n + 1) s = { s with status := .ready }

/-- R10, R65: the numbers the pseudocode rests on. -/
def Obligations.WrapAndSignExtensionValues : Prop :=
  (∀ v : Int, -2 ^ 31 ≤ (wrap32 v).toInt ∧ (wrap32 v).toInt < 2 ^ 31 ∧ (2 ^ 32 : Int) ∣ v - (wrap32 v).toInt) ∧
  (∀ v : Int, ((u32 v).toNat : Int) = v % 2 ^ 32) ∧
  (∀ h : Half, (sext16 h).toInt = (if h.getLsbD 15 then (h.toNat : Int) - 2 ^ 16 else (h.toNat : Int)) ∧
    -32768 ≤ (sext16 h).toInt ∧ (sext16 h).toInt ≤ 32767) ∧
  (∀ hi lo : Byte, (be16 hi lo).toNat = hi.toNat * 256 + lo.toNat)

/-- R24: a step that completes without a jump taken, an untaken JEQ or JNEQ among them; R26: "Sequential advance happens only after a successful fetch of 4 bytes, so pc0 + 4 <= len <= PROG_MAX" (marked as derived there; that PROG_MAX is below 2^32 is log 3). -/
def Obligations.SequentialPcNeverWraps : Prop :=
  ∀ (s t : State) (i : Instr), s.Inv → s.Runs i → takesJump s.eqf i = false → step s = .next t → t.status ≠ .faulted →
    t.pc.toNat = s.pc.toNat + 4 ∧ t.pc.toNat ≤ t.prog.length

/-- C3: "A jump cannot produce `Halted(End)`"; R160. -/
def Obligations.TakenJumpNeverReachesTheEnd : Prop :=
  ∀ (s t u : State) (i : Instr) (r : Byte), s.Inv → s.Runs i →
    (i = .jmp r ∨ i = .jmpf r ∨ i = .jmpb r ∨ (i = .jeq r ∧ s.eqf = true) ∨ (i = .jneq r ∧ s.eqf = false)) →
    step s = .next t → t.status ≠ .faulted → step t = .next u →
    t.pc.toNat < t.prog.length ∧ u.status ≠ .haltedEnd

/-- R71, R72, R73: host toolchain rules (R5), kept because they say how a program is spelled. -/
def Obligations.AssembledLineIsTheEncoding : Prop :=
  ∀ (c : Config) (symbols : List (String × Nat)) (i : Instr),
    assembleLine c symbols (canonicalLine i) = .bytes (encode c i)

/-- R75, a host toolchain rule (R5). That an offset of 2^32 or more is kept unwrapped, where R76 stores a UInt32, is the model's choice (log 22). -/
def Obligations.LabelOffsetIsFourTimesTheIndex : Prop :=
  ∀ (ls : List Line) (name : String) (offset : Nat),
    (name, offset) ∈ symbolsFrom 0 ls ↔
      ∃ (k : Nat) (hk : k < ls.length), ls[k].label = some name ∧ offset = 4 * k

/-- R77: "The LOAD yields `x[r] = sext_16(offset[15:0])`, which equals the offset for every offset below 0x8000." -/
def Obligations.LabelReachesPcThroughLoad : Prop :=
  ∀ (c : Config) (symbols : List (String × Nat)) (name : String) (offset : Nat) (r : Byte) (hr : r.toNat < 32),
    c.WellFormed → symbols.lookup name = some offset → offset < 0x8000 →
    ∃ (bs : List Byte) (imm : Half),
      assembleLine c symbols { label := none, mnemonic := "load", operands := [.reg r, .label name] } = .bytes bs ∧
      decode c bs = .instr (.load r imm) [] ∧
      ∀ s : State, ∃ t : State, exec (.load r imm) s = .next t ∧ t.regs[r.toNat].toInt = offset ∧
        (offset < t.prog.length → ∃ u : State, exec (.jmp r) t = .next u ∧ u.pc.toNat = offset)

/-- R80, whatever the parameters: HLT = 0 and LOAD = 1 are fixed (R63). The parser is host toolchain (00_scope.md R5 (b)). -/
def Obligations.SourceExamplesEncode : Prop :=
  ∀ c : Config,
    assembleText c "load $0 #100" = .bytes [1, 0, 0, 100] ∧ assembleText c "hlt" = .bytes [0, 0, 0, 0]

/-- R70: "Trailing/leading whitespace and blank lines are insignificant." and malformed operand syntax "fails the whole parse with no partial result". The text `before` is empty or ends a line, and `after` is empty or starts with the end of one, so the line may be the first, the last or the only one. Which characters are whitespace, what ends a line, and which lines beyond a malformed operand do not parse are the model's choice (log 18). The parser is host toolchain (00_scope.md R5 (b)). -/
def Obligations.SourceLinesStandAlone : Prop :=
  ∀ before line after w v : List Char,
    (before = [] ∨ before.getLast? = some '\n') → (after = [] ∨ after.head? = some '\n') →
    '\n' ∉ line → '\n' ∉ w → '\n' ∉ v → (∀ ch ∈ w, ch.isWhitespace) → (∀ ch ∈ v, ch.isWhitespace) →
    parseProgram (before ++ w ++ after) = parseProgram (before ++ after) ∧
    parseProgram (before ++ w ++ after) = parseProgram (before ++ after.drop 1) ∧
    parseProgram (before ++ (w ++ line ++ v) ++ after) = parseProgram (before ++ line ++ after) ∧
    (tokensOf line ≠ [] → parseTokens (tokensOf line) = none →
      parseProgram (before ++ line ++ after) = none)

/-- R130. The encoding clause names the reference assignment (R63) as its assumption. -/
def Obligations.LoadSignExtendsImmediate : Prop :=
  ∀ (s : State) (r hh ll : Byte), ∃ imm : Half,
    (∀ rest, decode Config.reference (0x01 :: r :: hh :: ll :: rest) = .instr (.load r imm) rest) ∧
    imm.toNat = hh.toNat * 256 + ll.toNat ∧
    (∀ (hr : r.toNat < 32), exec (.load r imm) s = .next { s with
      regs := s.regs.set r.toNat
        (BitVec.ofInt 32 (if imm.getLsbD 15 then (imm.toNat : Int) - 2 ^ 16 else (imm.toNat : Int)))
      pc := s.pc + 4, status := .ready }) ∧
    BadFieldFaults (.load r imm) [r] s

/-- R131 (decision D4). The encoding clause names the reference assignment (R63) as its assumption. -/
def Obligations.AddWrapsIntoDestination : Prop :=
  ∀ (s : State) (r1 r2 r3 : Byte),
    (∀ rest, decode Config.reference (0x02 :: r1 :: r2 :: r3 :: rest) = .instr (.add r1 r2 r3) rest) ∧
    (∀ (h1 : r1.toNat < 32) (h2 : r2.toNat < 32) (h3 : r3.toNat < 32),
      exec (.add r1 r2 r3) s = .next { s with
        regs := s.regs.set r3.toNat (BitVec.ofInt 32 (s.regs[r1.toNat].toInt + s.regs[r2.toNat].toInt))
        pc := s.pc + 4, status := .ready }) ∧
    BadFieldFaults (.add r1 r2 r3) [r1, r2, r3] s

/-- R132 (decision D4). The encoding clause names the reference assignment (R63) as its assumption. -/
def Obligations.SubWrapsIntoDestination : Prop :=
  ∀ (s : State) (r1 r2 r3 : Byte),
    (∀ rest, decode Config.reference (0x03 :: r1 :: r2 :: r3 :: rest) = .instr (.sub r1 r2 r3) rest) ∧
    (∀ (h1 : r1.toNat < 32) (h2 : r2.toNat < 32) (h3 : r3.toNat < 32),
      exec (.sub r1 r2 r3) s = .next { s with
        regs := s.regs.set r3.toNat (BitVec.ofInt 32 (s.regs[r1.toNat].toInt - s.regs[r2.toNat].toInt))
        pc := s.pc + 4, status := .ready }) ∧
    BadFieldFaults (.sub r1 r2 r3) [r1, r2, r3] s

/-- R133 (decision D4). The encoding clause names the reference assignment (R63) as its assumption. -/
def Obligations.MulWrapsIntoDestination : Prop :=
  ∀ (s : State) (r1 r2 r3 : Byte),
    (∀ rest, decode Config.reference (0x04 :: r1 :: r2 :: r3 :: rest) = .instr (.mul r1 r2 r3) rest) ∧
    (∀ (h1 : r1.toNat < 32) (h2 : r2.toNat < 32) (h3 : r3.toNat < 32),
      exec (.mul r1 r2 r3) s = .next { s with
        regs := s.regs.set r3.toNat (BitVec.ofInt 32 (s.regs[r1.toNat].toInt * s.regs[r2.toNat].toInt))
        pc := s.pc + 4, status := .ready }) ∧
    BadFieldFaults (.mul r1 r2 r3) [r1, r2, r3] s

/-- R134 (decisions D5, D6). The encoding clause names the reference assignment (R63) as its assumption. -/
def Obligations.DivWritesQuotientAndRemainder : Prop :=
  ∀ (s : State) (r1 r2 r3 : Byte),
    (∀ rest, decode Config.reference (0x05 :: r1 :: r2 :: r3 :: rest) = .instr (.div r1 r2 r3) rest) ∧
    (∀ (h1 : r1.toNat < 32) (h2 : r2.toNat < 32) (h3 : r3.toNat < 32),
      (s.regs[r2.toNat].toInt = 0 →
        exec (.div r1 r2 r3) s = .next (s.faultedBy .divisionByZero r2.toNat)) ∧
      (s.regs[r1.toNat].toInt = -2 ^ 31 → s.regs[r2.toNat].toInt = -1 →
        exec (.div r1 r2 r3) s = .next (s.faultedBy .divisionOverflow r2.toNat)) ∧
      (s.regs[r2.toNat].toInt ≠ 0 → ¬(s.regs[r1.toNat].toInt = -2 ^ 31 ∧ s.regs[r2.toNat].toInt = -1) →
        exec (.div r1 r2 r3) s = .next { s with
          regs := s.regs.set r3.toNat (BitVec.ofInt 32 (s.regs[r1.toNat].toInt.tdiv s.regs[r2.toNat].toInt))
          rem := BitVec.ofInt 32 (s.regs[r1.toNat].toInt.tmod s.regs[r2.toNat].toInt)
          pc := s.pc + 4, status := .ready })) ∧
    BadFieldFaults (.div r1 r2 r3) [r1, r2, r3] s

/-- R138 (decision D5), for every pair of operands; dividend and divisor are the old values, also where r3 is r1 or r2. -/
def Obligations.DivisionLaw : Prop :=
  ∀ (s : State) (r1 r2 r3 : Byte) (h1 : r1.toNat < 32) (h2 : r2.toNat < 32) (h3 : r3.toNat < 32),
    s.regs[r2.toNat].toInt ≠ 0 → ¬(s.regs[r1.toNat].toInt = -2 ^ 31 ∧ s.regs[r2.toNat].toInt = -1) →
    ∃ (t : State) (m : Int), exec (.div r1 r2 r3) s = .next t ∧ t.status = .ready ∧
      s.regs[r1.toNat].toInt = t.regs[r3.toNat].toInt * s.regs[r2.toNat].toInt + m ∧
      m.natAbs < s.regs[r2.toNat].toInt.natAbs ∧ (m = 0 ∨ m.sign = s.regs[r1.toNat].toInt.sign) ∧
      (t.regs[r3.toNat].toInt * s.regs[r2.toNat].toInt).natAbs ≤ s.regs[r1.toNat].toInt.natAbs ∧
      (t.rem.toNat : Int) = if m < 0 then 2 ^ 32 + m else m

/-- R135 (decision D4). The encoding clause names the reference assignment (R63) as its assumption. -/
def Obligations.IncAddsOne : Prop :=
  ∀ (s : State) (r : Byte),
    (∀ p2 p3 rest, decode Config.reference (0x12 :: r :: p2 :: p3 :: rest) = .instr (.inc r) rest) ∧
    (∀ (hr : r.toNat < 32), exec (.inc r) s = .next { s with
      regs := s.regs.set r.toNat (BitVec.ofInt 32 (s.regs[r.toNat].toInt + 1))
      pc := s.pc + 4, status := .ready }) ∧
    BadFieldFaults (.inc r) [r] s

/-- R136 (decision D4). The encoding clause names the reference assignment (R63) as its assumption. -/
def Obligations.DecSubtractsOne : Prop :=
  ∀ (s : State) (r : Byte),
    (∀ p2 p3 rest, decode Config.reference (0x13 :: r :: p2 :: p3 :: rest) = .instr (.dec r) rest) ∧
    (∀ (hr : r.toNat < 32), exec (.dec r) s = .next { s with
      regs := s.regs.set r.toNat (BitVec.ofInt 32 (s.regs[r.toNat].toInt - 1))
      pc := s.pc + 4, status := .ready }) ∧
    BadFieldFaults (.dec r) [r] s

/-- R151, with the common behaviour of R150 (decision D28). The encoding clause names the reference assignment (R63) as its assumption. -/
def Obligations.EqSetsFlag : Prop :=
  ∀ (s : State) (r1 r2 : Byte),
    (∀ p3 rest, decode Config.reference (0x09 :: r1 :: r2 :: p3 :: rest) = .instr (.eq r1 r2) rest) ∧
    (∀ (h1 : r1.toNat < 32) (h2 : r2.toNat < 32), exec (.eq r1 r2) s = .next { s with
      eqf := decide (s.regs[r1.toNat].toInt = s.regs[r2.toNat].toInt)
      pc := s.pc + 4, status := .ready }) ∧
    BadFieldFaults (.eq r1 r2) [r1, r2] s

/-- R152, with the common behaviour of R150 (decision D28). The encoding clause names the reference assignment (R63) as its assumption. -/
def Obligations.NeqSetsFlag : Prop :=
  ∀ (s : State) (r1 r2 : Byte),
    (∀ p3 rest, decode Config.reference (0x0A :: r1 :: r2 :: p3 :: rest) = .instr (.neq r1 r2) rest) ∧
    (∀ (h1 : r1.toNat < 32) (h2 : r2.toNat < 32), exec (.neq r1 r2) s = .next { s with
      eqf := decide (s.regs[r1.toNat].toInt ≠ s.regs[r2.toNat].toInt)
      pc := s.pc + 4, status := .ready }) ∧
    BadFieldFaults (.neq r1 r2) [r1, r2] s

/-- R153, with the common behaviour of R150 (decision D28). The encoding clause names the reference assignment (R63) as its assumption. -/
def Obligations.GtSetsFlag : Prop :=
  ∀ (s : State) (r1 r2 : Byte),
    (∀ p3 rest, decode Config.reference (0x0B :: r1 :: r2 :: p3 :: rest) = .instr (.gt r1 r2) rest) ∧
    (∀ (h1 : r1.toNat < 32) (h2 : r2.toNat < 32), exec (.gt r1 r2) s = .next { s with
      eqf := decide (s.regs[r1.toNat].toInt > s.regs[r2.toNat].toInt)
      pc := s.pc + 4, status := .ready }) ∧
    BadFieldFaults (.gt r1 r2) [r1, r2] s

/-- R154, with the common behaviour of R150 (decision D28). The encoding clause names the reference assignment (R63) as its assumption. -/
def Obligations.LtSetsFlag : Prop :=
  ∀ (s : State) (r1 r2 : Byte),
    (∀ p3 rest, decode Config.reference (0x0C :: r1 :: r2 :: p3 :: rest) = .instr (.lt r1 r2) rest) ∧
    (∀ (h1 : r1.toNat < 32) (h2 : r2.toNat < 32), exec (.lt r1 r2) s = .next { s with
      eqf := decide (s.regs[r1.toNat].toInt < s.regs[r2.toNat].toInt)
      pc := s.pc + 4, status := .ready }) ∧
    BadFieldFaults (.lt r1 r2) [r1, r2] s

/-- R155, with the common behaviour of R150 (decision D28). The encoding clause names the reference assignment (R63) as its assumption. -/
def Obligations.GteSetsFlag : Prop :=
  ∀ (s : State) (r1 r2 : Byte),
    (∀ p3 rest, decode Config.reference (0x0D :: r1 :: r2 :: p3 :: rest) = .instr (.gte r1 r2) rest) ∧
    (∀ (h1 : r1.toNat < 32) (h2 : r2.toNat < 32), exec (.gte r1 r2) s = .next { s with
      eqf := decide (s.regs[r1.toNat].toInt ≥ s.regs[r2.toNat].toInt)
      pc := s.pc + 4, status := .ready }) ∧
    BadFieldFaults (.gte r1 r2) [r1, r2] s

/-- R156, with the common behaviour of R150 (decision D28). The encoding clause names the reference assignment (R63) as its assumption. -/
def Obligations.LteSetsFlag : Prop :=
  ∀ (s : State) (r1 r2 : Byte),
    (∀ p3 rest, decode Config.reference (0x0E :: r1 :: r2 :: p3 :: rest) = .instr (.lte r1 r2) rest) ∧
    (∀ (h1 : r1.toNat < 32) (h2 : r2.toNat < 32), exec (.lte r1 r2) s = .next { s with
      eqf := decide (s.regs[r1.toNat].toInt ≤ s.regs[r2.toNat].toInt)
      pc := s.pc + 4, status := .ready }) ∧
    BadFieldFaults (.lte r1 r2) [r1, r2] s

/-- R161 (decision D11). HLT = 0 holds for every OPCODE_OF. -/
def Obligations.HltHalts : Prop :=
  ∀ s : State,
    (∀ (c : Config) (p1 p2 p3 : Byte) (rest : List Byte),
      decode c (0x00 :: p1 :: p2 :: p3 :: rest) = .instr .hlt rest) ∧
    exec .hlt s = .next { s with pc := s.pc + 4, status := .haltedHlt } ∧
    State.result { s with pc := s.pc + 4, status := .haltedHlt } = some .haltedHlt ∧
    step { s with pc := s.pc + 4, status := .haltedHlt } = step { s with pc := s.pc + 4, status := .ready }

/-- R167 (decisions D11, D34). The encoding clause names the reference assignment (R63) as its assumption. -/
def Obligations.IglHaltsIllegal : Prop :=
  ∀ s : State,
    (∀ (c : Config) (b0 b1 b2 b3 : Byte) (rest : List Byte), (∀ op : Opcode, op ≠ .igl → c.opcodes.byte op ≠ b0) →
      decode c (b0 :: b1 :: b2 :: b3 :: rest) = .instr .igl rest) ∧
    (∀ (b0 b1 b2 b3 : Byte) (rest : List Byte), 0x14 ≤ b0.toNat →
      decode Config.reference (b0 :: b1 :: b2 :: b3 :: rest) = .instr .igl rest) ∧
    exec .igl s = .next { s with pc := s.pc + 4, status := .haltedIllegal } ∧
    State.result { s with pc := s.pc + 4, status := .haltedIllegal } = some .haltedIllegal

/-- R162, with the target check of R160 (decision D13). The encoding clause names the reference assignment (R63) as its assumption. -/
def Obligations.JmpGoesToRegister : Prop :=
  ∀ (s : State) (r : Byte),
    (∀ p2 p3 rest, decode Config.reference (0x06 :: r :: p2 :: p3 :: rest) = .instr (.jmp r) rest) ∧
    (∀ (hr : r.toNat < 32), JumpsTo (.jmp r) s (s.regs[r.toNat].toInt)) ∧
    BadFieldFaults (.jmp r) [r] s

/-- R163, with the target check of R160 (decision D13). REL_BASE is a parameter, any integer (D3). The encoding clause names the reference assignment (R63) as its assumption. -/
def Obligations.JmpfGoesForward : Prop :=
  ∀ (s : State) (r : Byte),
    (∀ p2 p3 rest, decode Config.reference (0x07 :: r :: p2 :: p3 :: rest) = .instr (.jmpf r) rest) ∧
    (∀ (hr : r.toNat < 32), JumpsTo (.jmpf r) s (s.pc.toNat + s.cfg.relBase + s.regs[r.toNat].toInt)) ∧
    BadFieldFaults (.jmpf r) [r] s

/-- R164, with the target check of R160 (decision D13). REL_BASE is a parameter, any integer (D3). The encoding clause names the reference assignment (R63) as its assumption. -/
def Obligations.JmpbGoesBackward : Prop :=
  ∀ (s : State) (r : Byte),
    (∀ p2 p3 rest, decode Config.reference (0x08 :: r :: p2 :: p3 :: rest) = .instr (.jmpb r) rest) ∧
    (∀ (hr : r.toNat < 32), JumpsTo (.jmpb r) s (s.pc.toNat + s.cfg.relBase - s.regs[r.toNat].toInt)) ∧
    BadFieldFaults (.jmpb r) [r] s

/-- R165 (decisions D7, D13, D16, D29). The encoding clause names the reference assignment (R63) as its assumption. -/
def Obligations.JeqJumpsOnSetFlag : Prop :=
  ∀ (s : State) (r : Byte),
    (∀ p2 p3 rest, decode Config.reference (0x0F :: r :: p2 :: p3 :: rest) = .instr (.jeq r) rest) ∧
    (∀ (hr : r.toNat < 32),
      (s.eqf = true → JumpsTo (.jeq r) s s.regs[r.toNat].toInt) ∧
      (s.eqf = false → exec (.jeq r) s = .next { s with pc := s.pc + 4, status := .ready })) ∧
    BadFieldFaults (.jeq r) [r] s

/-- R166 (decisions D7, D13, D16, D29). The encoding clause names the reference assignment (R63) as its assumption. -/
def Obligations.JneqJumpsOnClearFlag : Prop :=
  ∀ (s : State) (r : Byte),
    (∀ p2 p3 rest, decode Config.reference (0x10 :: r :: p2 :: p3 :: rest) = .instr (.jneq r) rest) ∧
    (∀ (hr : r.toNat < 32),
      (s.eqf = false → JumpsTo (.jneq r) s s.regs[r.toNat].toInt) ∧
      (s.eqf = true → exec (.jneq r) s = .next { s with pc := s.pc + 4, status := .ready })) ∧
    BadFieldFaults (.jneq r) [r] s

/-- R180 (decision D17). HEAP_MAX is a parameter, any natural number. The encoding clause names the reference assignment (R63) as its assumption. -/
def Obligations.AlocGrowsTheHeap : Prop :=
  ∀ (s : State) (r : Byte),
    (∀ p2 p3 rest, decode Config.reference (0x11 :: r :: p2 :: p3 :: rest) = .instr (.aloc r) rest) ∧
    (∀ (hr : r.toNat < 32),
      (s.regs[r.toNat].toInt < 0 →
        exec (.aloc r) s = .next (s.faultedBy .negativeHeapGrowth s.regs[r.toNat].toInt)) ∧
      (0 ≤ s.regs[r.toNat].toInt → s.cfg.heapMax < s.heapLen + s.regs[r.toNat].toInt →
        exec (.aloc r) s = .next (s.faultedBy .heapExhausted s.regs[r.toNat].toInt)) ∧
      (0 ≤ s.regs[r.toNat].toInt → s.heapLen + s.regs[r.toNat].toInt ≤ s.cfg.heapMax →
        ∃ t : State, exec (.aloc r) s = .next t ∧ (t.heapLen : Int) = s.heapLen + s.regs[r.toNat].toInt ∧
          t = { s with heapLen := t.heapLen, pc := s.pc + 4, status := .ready } ∧
          ∀ a : Nat, s.heapLen ≤ a → a < t.heapLen → t.heapByte a = some 0)) ∧
    BadFieldFaults (.aloc r) [r] s
end

