-- ==== Sys2Proof/Laws/Decode.lean ====
section
/-! SUPPORT. Small lemmas of the decoder and the encoder. -/

namespace Sys2Proof

/-- `be16(hi, lo) = hi * 256 + lo` (00_scope.md R10): nothing is cut off. -/
theorem be16_toNat (hi lo : Byte) : (be16 hi lo).toNat = hi.toNat * 256 + lo.toNat := by
  have h1 := hi.isLt
  have h2 := lo.isLt
  simp only [be16, BitVec.toNat_ofNat]
  omega

@[simp] theorem be16_hiByte_loByte (h : Half) : be16 (hiByte h) (loByte h) = h := by
  have hl := h.isLt
  refine BitVec.eq_of_toNat_eq ?_
  rw [be16_toNat]
  simp only [hiByte, loByte, BitVec.toNat_ofNat]
  omega

@[simp] theorem hiByte_be16 (hi lo : Byte) : hiByte (be16 hi lo) = hi := by
  have h1 := hi.isLt
  have h2 := lo.isLt
  refine BitVec.eq_of_toNat_eq ?_
  simp only [hiByte, BitVec.toNat_ofNat, be16_toNat]
  omega

@[simp] theorem loByte_be16 (hi lo : Byte) : loByte (be16 hi lo) = lo := by
  have h2 := lo.isLt
  refine BitVec.eq_of_toNat_eq ?_
  simp only [loByte, BitVec.toNat_ofNat, be16_toNat]
  omega

@[simp] theorem decode_cons4 (c : Config) (b0 b1 b2 b3 : Byte) (rest : List Byte) :
    decode c (b0 :: b1 :: b2 :: b3 :: rest) = .instr (decodeWord c b0 b1 b2 b3) rest := rfl

/-- Fewer than four bytes are truncated, and nothing else is (30_encoding.md R66). -/
theorem decode_short (c : Config) (bs : List Byte) (h : bs.length < 4) : decode c bs = .truncated bs.length := by
  match bs, h with
  | [], _ => rfl
  | [_], _ => rfl
  | [_, _], _ => rfl
  | [_, _, _], _ => rfl

/-- The operation code of a decoded word is what the decoder reads from byte 0 (R66). -/
theorem opcode_decodeWord (c : Config) (b0 b1 b2 b3 : Byte) :
    (decodeWord c b0 b1 b2 b3).opcode = decodeOpcode c b0 := by
  unfold decodeWord
  cases decodeOpcode c b0 <;> rfl

/-- `executable` lists every operation code but IGL. -/
theorem mem_executable (op : Opcode) : op ∈ Opcode.executable ↔ op ≠ .igl := by
  cases op <;> decide

end Sys2Proof
end

