-- ==== Sys2Proof/Laws/State.lean ====
section
/-! SUPPORT. One lemma per field and update of the state, true by definition, so that no proof unfolds a record
update. -/

namespace Sys2Proof.Machine

variable (s : State)

/-! ### setX -/

@[simp] theorem State.setX_regs (i : Fin 32) (v : Word) : (s.setX i v).regs = s.regs.set i v := rfl
@[simp] theorem State.setX_pc (i : Fin 32) (v : Word) : (s.setX i v).pc = s.pc := rfl
@[simp] theorem State.setX_eqf (i : Fin 32) (v : Word) : (s.setX i v).eqf = s.eqf := rfl
@[simp] theorem State.setX_rem (i : Fin 32) (v : Word) : (s.setX i v).rem = s.rem := rfl
@[simp] theorem State.setX_heapLen (i : Fin 32) (v : Word) : (s.setX i v).heapLen = s.heapLen := rfl
@[simp] theorem State.setX_prog (i : Fin 32) (v : Word) : (s.setX i v).prog = s.prog := rfl
@[simp] theorem State.setX_status (i : Fin 32) (v : Word) : (s.setX i v).status = s.status := rfl
@[simp] theorem State.setX_fault (i : Fin 32) (v : Word) : (s.setX i v).fault = s.fault := rfl
@[simp] theorem State.setX_cfg (i : Fin 32) (v : Word) : (s.setX i v).cfg = s.cfg := rfl

/-! ### setPc -/

@[simp] theorem State.setPc_regs (a : Word) : (s.setPc a).regs = s.regs := rfl
@[simp] theorem State.setPc_pc (a : Word) : (s.setPc a).pc = a := rfl
@[simp] theorem State.setPc_eqf (a : Word) : (s.setPc a).eqf = s.eqf := rfl
@[simp] theorem State.setPc_rem (a : Word) : (s.setPc a).rem = s.rem := rfl
@[simp] theorem State.setPc_heapLen (a : Word) : (s.setPc a).heapLen = s.heapLen := rfl
@[simp] theorem State.setPc_prog (a : Word) : (s.setPc a).prog = s.prog := rfl
@[simp] theorem State.setPc_status (a : Word) : (s.setPc a).status = s.status := rfl
@[simp] theorem State.setPc_fault (a : Word) : (s.setPc a).fault = s.fault := rfl
@[simp] theorem State.setPc_cfg (a : Word) : (s.setPc a).cfg = s.cfg := rfl

/-! ### setEqf -/

@[simp] theorem State.setEqf_regs (b : Bool) : (s.setEqf b).regs = s.regs := rfl
@[simp] theorem State.setEqf_pc (b : Bool) : (s.setEqf b).pc = s.pc := rfl
@[simp] theorem State.setEqf_eqf (b : Bool) : (s.setEqf b).eqf = b := rfl
@[simp] theorem State.setEqf_rem (b : Bool) : (s.setEqf b).rem = s.rem := rfl
@[simp] theorem State.setEqf_heapLen (b : Bool) : (s.setEqf b).heapLen = s.heapLen := rfl
@[simp] theorem State.setEqf_prog (b : Bool) : (s.setEqf b).prog = s.prog := rfl
@[simp] theorem State.setEqf_status (b : Bool) : (s.setEqf b).status = s.status := rfl
@[simp] theorem State.setEqf_fault (b : Bool) : (s.setEqf b).fault = s.fault := rfl
@[simp] theorem State.setEqf_cfg (b : Bool) : (s.setEqf b).cfg = s.cfg := rfl

/-! ### setRem -/

@[simp] theorem State.setRem_regs (v : Word) : (s.setRem v).regs = s.regs := rfl
@[simp] theorem State.setRem_pc (v : Word) : (s.setRem v).pc = s.pc := rfl
@[simp] theorem State.setRem_eqf (v : Word) : (s.setRem v).eqf = s.eqf := rfl
@[simp] theorem State.setRem_rem (v : Word) : (s.setRem v).rem = v := rfl
@[simp] theorem State.setRem_heapLen (v : Word) : (s.setRem v).heapLen = s.heapLen := rfl
@[simp] theorem State.setRem_prog (v : Word) : (s.setRem v).prog = s.prog := rfl
@[simp] theorem State.setRem_status (v : Word) : (s.setRem v).status = s.status := rfl
@[simp] theorem State.setRem_fault (v : Word) : (s.setRem v).fault = s.fault := rfl
@[simp] theorem State.setRem_cfg (v : Word) : (s.setRem v).cfg = s.cfg := rfl

/-! ### setHeapLen -/

@[simp] theorem State.setHeapLen_regs (n : Nat) : (s.setHeapLen n).regs = s.regs := rfl
@[simp] theorem State.setHeapLen_pc (n : Nat) : (s.setHeapLen n).pc = s.pc := rfl
@[simp] theorem State.setHeapLen_eqf (n : Nat) : (s.setHeapLen n).eqf = s.eqf := rfl
@[simp] theorem State.setHeapLen_rem (n : Nat) : (s.setHeapLen n).rem = s.rem := rfl
@[simp] theorem State.setHeapLen_heapLen (n : Nat) : (s.setHeapLen n).heapLen = n := rfl
@[simp] theorem State.setHeapLen_prog (n : Nat) : (s.setHeapLen n).prog = s.prog := rfl
@[simp] theorem State.setHeapLen_status (n : Nat) : (s.setHeapLen n).status = s.status := rfl
@[simp] theorem State.setHeapLen_fault (n : Nat) : (s.setHeapLen n).fault = s.fault := rfl
@[simp] theorem State.setHeapLen_cfg (n : Nat) : (s.setHeapLen n).cfg = s.cfg := rfl

/-! ### setStatus -/

@[simp] theorem State.setStatus_regs (st : Status) : (s.setStatus st).regs = s.regs := rfl
@[simp] theorem State.setStatus_pc (st : Status) : (s.setStatus st).pc = s.pc := rfl
@[simp] theorem State.setStatus_eqf (st : Status) : (s.setStatus st).eqf = s.eqf := rfl
@[simp] theorem State.setStatus_rem (st : Status) : (s.setStatus st).rem = s.rem := rfl
@[simp] theorem State.setStatus_heapLen (st : Status) : (s.setStatus st).heapLen = s.heapLen := rfl
@[simp] theorem State.setStatus_prog (st : Status) : (s.setStatus st).prog = s.prog := rfl
@[simp] theorem State.setStatus_status (st : Status) : (s.setStatus st).status = st := rfl
@[simp] theorem State.setStatus_fault (st : Status) : (s.setStatus st).fault = s.fault := rfl
@[simp] theorem State.setStatus_cfg (st : Status) : (s.setStatus st).cfg = s.cfg := rfl

/-! ### continueNext -/

@[simp] theorem State.continueNext_regs : (s.continueNext).regs = s.regs := rfl
@[simp] theorem State.continueNext_pc : (s.continueNext).pc = s.pc + 4 := rfl
@[simp] theorem State.continueNext_eqf : (s.continueNext).eqf = s.eqf := rfl
@[simp] theorem State.continueNext_rem : (s.continueNext).rem = s.rem := rfl
@[simp] theorem State.continueNext_heapLen : (s.continueNext).heapLen = s.heapLen := rfl
@[simp] theorem State.continueNext_prog : (s.continueNext).prog = s.prog := rfl
@[simp] theorem State.continueNext_status : (s.continueNext).status = .ready := rfl
@[simp] theorem State.continueNext_fault : (s.continueNext).fault = s.fault := rfl
@[simp] theorem State.continueNext_cfg : (s.continueNext).cfg = s.cfg := rfl

/-! ### haltAfter -/

@[simp] theorem State.haltAfter_regs (st : Status) : (s.haltAfter st).regs = s.regs := rfl
@[simp] theorem State.haltAfter_pc (st : Status) : (s.haltAfter st).pc = s.pc + 4 := rfl
@[simp] theorem State.haltAfter_eqf (st : Status) : (s.haltAfter st).eqf = s.eqf := rfl
@[simp] theorem State.haltAfter_rem (st : Status) : (s.haltAfter st).rem = s.rem := rfl
@[simp] theorem State.haltAfter_heapLen (st : Status) : (s.haltAfter st).heapLen = s.heapLen := rfl
@[simp] theorem State.haltAfter_prog (st : Status) : (s.haltAfter st).prog = s.prog := rfl
@[simp] theorem State.haltAfter_status (st : Status) : (s.haltAfter st).status = st := rfl
@[simp] theorem State.haltAfter_fault (st : Status) : (s.haltAfter st).fault = s.fault := rfl
@[simp] theorem State.haltAfter_cfg (st : Status) : (s.haltAfter st).cfg = s.cfg := rfl

/-! ### haltEnd -/

@[simp] theorem State.haltEnd_regs : (s.haltEnd).regs = s.regs := rfl
@[simp] theorem State.haltEnd_pc : (s.haltEnd).pc = s.pc := rfl
@[simp] theorem State.haltEnd_eqf : (s.haltEnd).eqf = s.eqf := rfl
@[simp] theorem State.haltEnd_rem : (s.haltEnd).rem = s.rem := rfl
@[simp] theorem State.haltEnd_heapLen : (s.haltEnd).heapLen = s.heapLen := rfl
@[simp] theorem State.haltEnd_prog : (s.haltEnd).prog = s.prog := rfl
@[simp] theorem State.haltEnd_status : (s.haltEnd).status = .haltedEnd := rfl
@[simp] theorem State.haltEnd_fault : (s.haltEnd).fault = s.fault := rfl
@[simp] theorem State.haltEnd_cfg : (s.haltEnd).cfg = s.cfg := rfl

/-! ### raiseFault -/

@[simp] theorem State.raiseFault_regs (k : FaultKind) (n : Int) : (s.raiseFault k n).regs = s.regs := rfl
@[simp] theorem State.raiseFault_pc (k : FaultKind) (n : Int) : (s.raiseFault k n).pc = s.pc := rfl
@[simp] theorem State.raiseFault_eqf (k : FaultKind) (n : Int) : (s.raiseFault k n).eqf = s.eqf := rfl
@[simp] theorem State.raiseFault_rem (k : FaultKind) (n : Int) : (s.raiseFault k n).rem = s.rem := rfl
@[simp] theorem State.raiseFault_heapLen (k : FaultKind) (n : Int) : (s.raiseFault k n).heapLen = s.heapLen := rfl
@[simp] theorem State.raiseFault_prog (k : FaultKind) (n : Int) : (s.raiseFault k n).prog = s.prog := rfl
@[simp] theorem State.raiseFault_status (k : FaultKind) (n : Int) : (s.raiseFault k n).status = .faulted := rfl
@[simp] theorem State.raiseFault_fault (k : FaultKind) (n : Int) : (s.raiseFault k n).fault = some { kind := k, pc := s.pc, word := s.fetched, info := n } := rfl
@[simp] theorem State.raiseFault_cfg (k : FaultKind) (n : Int) : (s.raiseFault k n).cfg = s.cfg := rfl

/-! ### Reading a register after an update -/

@[simp] theorem State.x_setX_self (i : Fin 32) (v : Word) : (s.setX i v).x i = v := by
  simp [State.x]

theorem State.x_setX_ne (i j : Fin 32) (v : Word) (h : i ≠ j) : (s.setX i v).x j = s.x j := by
  have h' : i.val ≠ j.val := fun e => h (Fin.ext e)
  simp [State.x, h']

@[simp] theorem State.x_setPc (i : Fin 32) (a : Word) : (s.setPc a).x i = s.x i := rfl
@[simp] theorem State.x_setEqf (i : Fin 32) (b : Bool) : (s.setEqf b).x i = s.x i := rfl
@[simp] theorem State.x_setRem (i : Fin 32) (v : Word) : (s.setRem v).x i = s.x i := rfl
@[simp] theorem State.x_setHeapLen (i : Fin 32) (n : Nat) : (s.setHeapLen n).x i = s.x i := rfl
@[simp] theorem State.x_setStatus (i : Fin 32) (st : Status) : (s.setStatus st).x i = s.x i := rfl
@[simp] theorem State.x_continueNext (i : Fin 32) : s.continueNext.x i = s.x i := rfl
@[simp] theorem State.x_raiseFault (i : Fin 32) (k : FaultKind) (n : Int) : (s.raiseFault k n).x i = s.x i := rfl

/-- Every register is 0 after reset (10_state.md R34). -/
theorem State.x_resetWith (c : Config) (i : Fin 32) : (State.resetWith c).x i = 0 := by
  simp [State.x, State.resetWith]

end Sys2Proof.Machine
end

