-- ==== Sys2Proof/Laws/Ops.lean ====
section
/-! SUPPORT. What each shared operation can do, said once; the proofs about instructions cite these. -/

namespace Sys2Proof.Machine

/-! ### Program space -/

theorem Memory.read_eq (m : Memory) (a : Nat) : m.read a = m[a]? := rfl

/-- Addresses at or beyond `len` hold nothing (20_memory.md R41). -/
theorem Memory.read_none_iff (m : Memory) (a : Nat) : m.read a = none ↔ m.length ≤ a := by
  simp [Memory.read]

/-- The bytes of a fetch: four, or as many as exist (40_fetch_decode_execute.md R101). -/
theorem Memory.fetch4_length (m : Memory) (a : Nat) : (m.fetch4 a).length = min 4 (m.length - a) := by
  simp [Memory.fetch4]

/-- Four bytes at `a` are what a fetch at `a` returns. -/
theorem Memory.fetch4_of_read (m : Memory) (a : Nat) (b0 b1 b2 b3 : Byte)
    (h0 : m.read a = some b0) (h1 : m.read (a + 1) = some b1) (h2 : m.read (a + 2) = some b2)
    (h3 : m.read (a + 3) = some b3) : m.fetch4 a = [b0, b1, b2, b3] := by
  simp only [Memory.read] at h0 h1 h2 h3
  refine List.ext_getElem? fun n => ?_
  match n with
  | 0 => simp [Memory.fetch4, h0]
  | 1 => simp [Memory.fetch4, h1]
  | 2 => simp [Memory.fetch4, h2]
  | 3 => simp [Memory.fetch4, h3]
  | k + 4 => simp [Memory.fetch4]

/-- Appending changes no byte that is there (20_memory.md R53). -/
theorem Memory.read_append_left (m bs : Memory) (a : Nat) (h : a < m.length) :
    Memory.read (m ++ bs) a = m.read a := by
  simp [Memory.read, List.getElem?_append_left h]

/-- The appended bytes stand from the old length on. -/
theorem Memory.read_append_right (m bs : Memory) (k : Nat) :
    Memory.read (m ++ bs) (m.length + k) = Memory.read bs k := by
  simp [Memory.read, List.getElem?_append_right]

theorem Memory.cellsFrom_fst_ge (m : Memory) (a : Nat) : ∀ p ∈ Memory.cellsFrom a m, a ≤ p.1 := by
  induction m generalizing a with
  | nil => simp [Memory.cellsFrom]
  | cons b bs ih =>
    intro p hp
    simp only [Memory.cellsFrom, List.mem_cons] at hp
    rcases hp with rfl | hp
    · exact Nat.le_refl a
    · exact Nat.le_of_succ_le (ih (a + 1) p hp)

theorem Memory.cellsFrom_rising (m : Memory) (a : Nat) :
    (Memory.cellsFrom a m).Pairwise fun p q => p.1 < q.1 := by
  induction m generalizing a with
  | nil => exact List.Pairwise.nil
  | cons b bs ih =>
    exact List.Pairwise.cons (fun q hq => Memory.cellsFrom_fst_ge bs (a + 1) q hq) (ih (a + 1))

/-- Every program space lists its addresses strictly rising: the canonical form holds of every list (log 5). -/
theorem Memory.cells_rising (m : Memory) : m.cells.Pairwise fun p q => p.1 < q.1 :=
  Memory.cellsFrom_rising m 0

theorem Memory.mem_cellsFrom (m : Memory) (a k : Nat) (b : Byte) :
    (a + k, b) ∈ Memory.cellsFrom a m ↔ m.read k = some b := by
  induction m generalizing a k with
  | nil => simp [Memory.cellsFrom, Memory.read]
  | cons c cs ih =>
    cases k with
    | zero =>
      have : (a, b) ∉ Memory.cellsFrom (a + 1) cs := fun h => by
        have := Memory.cellsFrom_fst_ge cs (a + 1) _ h
        simp at this
      simp [Memory.cellsFrom, Memory.read, this, eq_comm]
    | succ k =>
      have h := ih (a + 1) k
      have e : a + 1 + k = a + (k + 1) := by omega
      rw [e] at h
      simp only [Memory.cellsFrom, List.mem_cons, h, Prod.mk.injEq]
      simp [Memory.read]

/-- A program space and its (address, byte) pairs say the same. -/
theorem Memory.mem_cells (m : Memory) (a : Nat) (b : Byte) : (a, b) ∈ m.cells ↔ m.read a = some b := by
  have h := Memory.mem_cellsFrom m 0 a b
  simpa [Memory.cells] using h

theorem Memory.place_length (m : Memory) (a : Nat) (bs : List Byte) :
    (m.place a bs).length = max m.length (a + bs.length) := by
  simp [Memory.place]
  omega

/-- Placing bytes below 2^32 keeps the form of program space. -/
theorem Memory.place_wf (m : Memory) (a : Nat) (bs : List Byte) (h : m.wf) (ha : a + bs.length ≤ 2 ^ 32) :
    (m.place a bs).wf := by
  unfold Memory.wf
  rw [Memory.place_length]
  exact Nat.max_le.mpr ⟨h, ha⟩

/-- The placed bytes are what is read at `a` on. -/
theorem Memory.read_place (m : Memory) (a : Nat) (bs : List Byte) (k : Nat) (h : k < bs.length) :
    (m.place a bs).read (a + k) = some bs[k] := by
  have hl : (m.take a ++ List.replicate (a - m.length) (0 : Byte)).length = a := by
    simp; omega
  simp only [Memory.read, Memory.place]
  rw [List.getElem?_append_left (by simp only [List.length_append] at hl ⊢; omega),
    List.getElem?_append_right (by omega), hl]
  simp [h]

/-! ### Operand forms -/

theorem withReg_of_lt (b : Byte) (s : State) (k : Fin 32 → Result) (h : b.toNat < 32) :
    withReg b s k = k ⟨b.toNat, h⟩ := by
  simp [withReg, h]

theorem withReg_of_ge (b : Byte) (s : State) (k : Fin 32 → Result) (h : 32 ≤ b.toNat) :
    withReg b s k = .next (s.raiseFault .registerOutOfRange b.toNat) := by
  simp [withReg, Nat.not_lt.mpr h]

/-- Everything a checked register field can do: raise the fault, or go on with the register it names. -/
theorem withReg_cases (b : Byte) (s t : State) (k : Fin 32 → Result) (h : withReg b s k = .next t) :
    (32 ≤ b.toNat ∧ t = s.raiseFault .registerOutOfRange b.toNat) ∨
      ∃ hb : b.toNat < 32, k ⟨b.toNat, hb⟩ = .next t := by
  rcases Nat.lt_or_ge b.toNat 32 with hb | hb
  · exact .inr ⟨hb, by rwa [withReg_of_lt b s k hb] at h⟩
  · rw [withReg_of_ge b s k hb] at h
    exact .inl ⟨hb, by cases h; rfl⟩

/-- Everything a one-register form can do. -/
theorem withR_cases (r : Byte) (s t : State) (k : Fin 32 → State) (h : withR r s k = .next t) :
    (32 ≤ r.toNat ∧ t = s.raiseFault .registerOutOfRange r.toNat) ∨
      ∃ hr : r.toNat < 32, t = k ⟨r.toNat, hr⟩ := by
  rcases withReg_cases r s t _ h with h | ⟨hr, h⟩
  · exact .inl h
  · exact .inr ⟨hr, by cases h; rfl⟩

/-- Everything a two-register form can do. -/
theorem withRR_cases (r1 r2 : Byte) (s t : State) (k : Fin 32 → Fin 32 → State)
    (h : withRR r1 r2 s k = .next t) :
    (∃ b : Byte, 32 ≤ b.toNat ∧ b.toNat ≤ 255 ∧ t = s.raiseFault .registerOutOfRange b.toNat) ∨
      ∃ (h1 : r1.toNat < 32) (h2 : r2.toNat < 32), t = k ⟨r1.toNat, h1⟩ ⟨r2.toNat, h2⟩ := by
  have bound (b : Byte) : b.toNat ≤ 255 := Nat.le_of_lt_succ b.isLt
  rcases withReg_cases r1 s t _ h with ⟨hb, h⟩ | ⟨h1, h⟩
  · exact .inl ⟨r1, hb, bound r1, h⟩
  · rcases withReg_cases r2 s t _ h with ⟨hb, h⟩ | ⟨h2, h⟩
    · exact .inl ⟨r2, hb, bound r2, h⟩
    · exact .inr ⟨h1, h2, by cases h; rfl⟩

/-- Everything a three-register form can do. -/
theorem withRRR_cases (r1 r2 r3 : Byte) (s t : State) (k : Fin 32 → Fin 32 → Fin 32 → State)
    (h : withRRR r1 r2 r3 s k = .next t) :
    (∃ b : Byte, 32 ≤ b.toNat ∧ b.toNat ≤ 255 ∧ t = s.raiseFault .registerOutOfRange b.toNat) ∨
      ∃ (h1 : r1.toNat < 32) (h2 : r2.toNat < 32) (h3 : r3.toNat < 32),
        t = k ⟨r1.toNat, h1⟩ ⟨r2.toNat, h2⟩ ⟨r3.toNat, h3⟩ := by
  have bound (b : Byte) : b.toNat ≤ 255 := Nat.le_of_lt_succ b.isLt
  rcases withReg_cases r1 s t _ h with ⟨hb, h⟩ | ⟨h1, h⟩
  · exact .inl ⟨r1, hb, bound r1, h⟩
  · rcases withReg_cases r2 s t _ h with ⟨hb, h⟩ | ⟨h2, h⟩
    · exact .inl ⟨r2, hb, bound r2, h⟩
    · rcases withReg_cases r3 s t _ h with ⟨hb, h⟩ | ⟨h3, h⟩
      · exact .inl ⟨r3, hb, bound r3, h⟩
      · exact .inr ⟨h1, h2, h3, by cases h; rfl⟩

/-! ### Jumps, the heap, division -/

theorem State.jumpTo_inside (s : State) (t : Int) (h0 : 0 ≤ t) (h1 : t < s.len) :
    s.jumpTo t = (s.setPc (BitVec.ofInt 32 t)).setStatus .ready := by
  simp [State.jumpTo, h0, h1]

theorem State.jumpTo_outside (s : State) (t : Int) (h : t < 0 ∨ s.len ≤ t) :
    s.jumpTo t = s.raiseFault .pcOutOfBounds t := by
  have : ¬(0 ≤ t ∧ t < (s.len : Int)) := by omega
  simp [State.jumpTo, this]

/-- Everything a taken jump can do. -/
theorem State.jumpTo_cases (s : State) (t : Int) :
    (0 ≤ t ∧ t < s.len ∧ s.jumpTo t = (s.setPc (BitVec.ofInt 32 t)).setStatus .ready) ∨
      ((t < 0 ∨ s.len ≤ t) ∧ s.jumpTo t = s.raiseFault .pcOutOfBounds t) := by
  by_cases h : 0 ≤ t ∧ t < (s.len : Int)
  · exact .inl ⟨h.1, h.2, s.jumpTo_inside t h.1 h.2⟩
  · have h' : t < 0 ∨ (s.len : Int) ≤ t := by omega
    exact .inr ⟨h', s.jumpTo_outside t h'⟩

/-- Everything growing the heap can do. -/
theorem State.growHeap_cases (s : State) (n : Int) :
    (n < 0 ∧ s.growHeap n = s.raiseFault .negativeHeapGrowth n) ∨
      (0 ≤ n ∧ s.cfg.heapMax < s.heapLen + n ∧ s.growHeap n = s.raiseFault .heapExhausted n) ∨
      (0 ≤ n ∧ s.heapLen + n ≤ s.cfg.heapMax ∧
        s.growHeap n = (s.setHeapLen (s.heapLen + n.toNat)).continueNext) := by
  unfold State.growHeap
  split
  · exact .inl ⟨‹_›, rfl⟩
  · split
    · exact .inr (.inl ⟨by omega, ‹_›, rfl⟩)
    · exact .inr (.inr ⟨by omega, by omega, rfl⟩)

/-- Everything a division can do. -/
theorem divide_cases (i j d : Fin 32) (s : State) :
    ((s.x j).toInt = 0 ∧ divide i j d s = s.raiseFault .divisionByZero j.val) ∨
      ((s.x i).toInt = -2 ^ 31 ∧ (s.x j).toInt = -1 ∧ divide i j d s = s.raiseFault .divisionOverflow j.val) ∨
      ((s.x j).toInt ≠ 0 ∧ ¬((s.x i).toInt = -2 ^ 31 ∧ (s.x j).toInt = -1) ∧
        divide i j d s = ((s.setX d (wrap32 ((s.x i).toInt.tdiv (s.x j).toInt))).setRem
          (u32 ((s.x i).toInt - (s.x i).toInt.tdiv (s.x j).toInt * (s.x j).toInt))).continueNext) := by
  unfold divide
  by_cases h0 : (s.x j).toInt = 0
  · exact .inl ⟨h0, by simp [h0]⟩
  · by_cases h1 : (s.x i).toInt = -2 ^ 31 ∧ (s.x j).toInt = -1
    · exact .inr (.inl ⟨h1.1, h1.2, by simp [h1.1, h1.2]⟩)
    · exact .inr (.inr ⟨h0, h1, by simp only [h0, h1, if_false]⟩)

/-! ### Fetch -/

theorem fetchDecode_faulted (s : State) (h : s.status = .faulted) : fetchDecode s = .sticky := by
  simp [fetchDecode, h]

theorem fetchDecode_end (s : State) (h : s.status ≠ .faulted) (he : s.len ≤ s.pc.toNat) :
    fetchDecode s = .endOfProgram := by
  simp [fetchDecode, h, he]

theorem fetchDecode_instr (s : State) (h : s.status ≠ .faulted) (b0 b1 b2 b3 : Byte)
    (hf : s.fetched = [b0, b1, b2, b3]) : fetchDecode s = .instr (decodeWord s.cfg b0 b1 b2 b3) := by
  have hl : ¬s.len ≤ s.pc.toNat := fun hle => by
    have := Memory.fetch4_length s.prog s.pc.toNat
    simp only [State.fetched] at hf
    rw [hf] at this
    simp only [State.len] at hle
    simp at this
    omega
  simp [fetchDecode, h, hl, hf, decode]

end Sys2Proof.Machine
end

