-- ==== Sys2Proof/Laws/PerInstr.lean ====
section
/-! SUPPORT. Statements about every instruction as syntax, one lemma per constructor. -/

namespace Sys2Proof.Laws

/-- Every instruction encodes to exactly four bytes, the first of them its opcode byte (30_encoding.md R60). -/
def EncodeFourBytes.Statement (i : Instr) : Prop :=
  ∀ c : Config, (encode c i).length = 4 ∧ (encode c i).head? = some (c.opcodes.byte i.opcode)

theorem EncodeFourBytes.hlt : EncodeFourBytes.Statement .hlt := fun _ => ⟨rfl, rfl⟩
theorem EncodeFourBytes.load (r : Byte) (imm : Half) : EncodeFourBytes.Statement (.load r imm) := fun _ => ⟨rfl, rfl⟩
theorem EncodeFourBytes.add (r1 r2 r3 : Byte) : EncodeFourBytes.Statement (.add r1 r2 r3) := fun _ => ⟨rfl, rfl⟩
theorem EncodeFourBytes.sub (r1 r2 r3 : Byte) : EncodeFourBytes.Statement (.sub r1 r2 r3) := fun _ => ⟨rfl, rfl⟩
theorem EncodeFourBytes.mul (r1 r2 r3 : Byte) : EncodeFourBytes.Statement (.mul r1 r2 r3) := fun _ => ⟨rfl, rfl⟩
theorem EncodeFourBytes.div (r1 r2 r3 : Byte) : EncodeFourBytes.Statement (.div r1 r2 r3) := fun _ => ⟨rfl, rfl⟩
theorem EncodeFourBytes.jmp (r : Byte) : EncodeFourBytes.Statement (.jmp r) := fun _ => ⟨rfl, rfl⟩
theorem EncodeFourBytes.jmpf (r : Byte) : EncodeFourBytes.Statement (.jmpf r) := fun _ => ⟨rfl, rfl⟩
theorem EncodeFourBytes.jmpb (r : Byte) : EncodeFourBytes.Statement (.jmpb r) := fun _ => ⟨rfl, rfl⟩
theorem EncodeFourBytes.eq (r1 r2 : Byte) : EncodeFourBytes.Statement (.eq r1 r2) := fun _ => ⟨rfl, rfl⟩
theorem EncodeFourBytes.neq (r1 r2 : Byte) : EncodeFourBytes.Statement (.neq r1 r2) := fun _ => ⟨rfl, rfl⟩
theorem EncodeFourBytes.gt (r1 r2 : Byte) : EncodeFourBytes.Statement (.gt r1 r2) := fun _ => ⟨rfl, rfl⟩
theorem EncodeFourBytes.lt (r1 r2 : Byte) : EncodeFourBytes.Statement (.lt r1 r2) := fun _ => ⟨rfl, rfl⟩
theorem EncodeFourBytes.gte (r1 r2 : Byte) : EncodeFourBytes.Statement (.gte r1 r2) := fun _ => ⟨rfl, rfl⟩
theorem EncodeFourBytes.lte (r1 r2 : Byte) : EncodeFourBytes.Statement (.lte r1 r2) := fun _ => ⟨rfl, rfl⟩
theorem EncodeFourBytes.jeq (r : Byte) : EncodeFourBytes.Statement (.jeq r) := fun _ => ⟨rfl, rfl⟩
theorem EncodeFourBytes.jneq (r : Byte) : EncodeFourBytes.Statement (.jneq r) := fun _ => ⟨rfl, rfl⟩
theorem EncodeFourBytes.aloc (r : Byte) : EncodeFourBytes.Statement (.aloc r) := fun _ => ⟨rfl, rfl⟩
theorem EncodeFourBytes.inc (r : Byte) : EncodeFourBytes.Statement (.inc r) := fun _ => ⟨rfl, rfl⟩
theorem EncodeFourBytes.dec (r : Byte) : EncodeFourBytes.Statement (.dec r) := fun _ => ⟨rfl, rfl⟩
theorem EncodeFourBytes.igl : EncodeFourBytes.Statement .igl := fun _ => ⟨rfl, rfl⟩

end Sys2Proof.Laws
end

