-- ==== Sys2Proof/Laws/SourceText.lean ====
section
/-! SUPPORT. Laws of the source grammar: how splitting and tokens meet concatenation. -/

namespace Sys2Proof.Machine

@[simp] theorem splitOnChar_nil (p : Char → Bool) : splitOnChar p [] = [[]] := rfl

theorem splitOnChar_ne_nil (p : Char → Bool) (cs : List Char) : splitOnChar p cs ≠ [] := by
  cases cs with
  | nil => simp
  | cons x xs =>
    unfold splitOnChar
    split
    · simp
    · split <;> simp

theorem splitOnChar_append (p : Char → Bool) (sep : Char) (hs : p sep = true) (xs ys : List Char) :
    splitOnChar p (xs ++ sep :: ys) = splitOnChar p xs ++ splitOnChar p ys := by
  induction xs with
  | nil => simp [splitOnChar, hs]
  | cons x xs ih =>
    simp only [List.cons_append, splitOnChar]
    split
    · simp [ih]
    · rw [ih]
      cases h : splitOnChar p xs with
      | nil => exact absurd h (splitOnChar_ne_nil p xs)
      | cons y ys => simp

theorem tokensOf_blank (w : List Char) (hw : ∀ c ∈ w, c.isWhitespace) : tokensOf w = [] := by
  unfold tokensOf
  induction w with
  | nil => simp
  | cons x xs ih =>
    simp only [List.mem_cons, forall_eq_or_imp] at hw
    simpa [splitOnChar, hw.1] using ih hw.2

/-- Whitespace before a line changes no token. -/
theorem tokensOf_leading (w l : List Char) (hw : ∀ c ∈ w, c.isWhitespace) : tokensOf (w ++ l) = tokensOf l := by
  induction w with
  | nil => rfl
  | cons x xs ih =>
    simp only [List.mem_cons, forall_eq_or_imp] at hw
    have := ih hw.2
    unfold tokensOf at *
    simp [splitOnChar, hw.1, this]

/-- Whitespace after a line changes no token. -/
theorem tokensOf_trailing (l v : List Char) (hv : ∀ c ∈ v, c.isWhitespace) : tokensOf (l ++ v) = tokensOf l := by
  cases v with
  | nil => simp
  | cons x xs =>
    simp only [List.mem_cons, forall_eq_or_imp] at hv
    have h := tokensOf_blank xs hv.2
    unfold tokensOf at *
    rw [splitOnChar_append _ _ hv.1, List.filter_append, h, List.append_nil]

end Sys2Proof.Machine
end

