-- ==== Sys2Proof/Tests/Slice0.lean ====
section
/-! SUPPORT. Small tests, their expected values taken from spec/, and for each statement with hypotheses a concrete
state and operands that meet them. -/

namespace Sys2Proof.Tests

open Sys2Proof.Machine

/-- The reset state with a program, a pc and some registers. -/
def st (prog : List Byte) (pc : Word) (xs : List (Fin 32 × Word)) : State :=
  { State.reset with prog := prog, pc := pc, regs := xs.foldl (fun v p => v.set p.1 p.2) State.reset.regs }

/-- The outcome is a next state with the property `p`. -/
def nextIs (o : Result) (p : State → Bool) : Bool :=
  match o with
  | .next t => p t
  | .fault _ => false
  | .refused _ => false

/-- The state holds a fault of this kind and info, raised at its pc. -/
def hasFault (k : FaultKind) (info : Int) (t : State) : Bool :=
  t.status == .faulted && t.fault.any fun r => r.kind == k && r.info == info && r.pc == t.pc

/-! ### Well-formedness refuses -/

theorem test_wellFormed_first_field : (Instr.add 32 0 0).wellFormed = false := by decide
theorem test_wellFormed_second_field : (Instr.add 0 32 0).wellFormed = false := by decide
theorem test_wellFormed_third_field : (Instr.add 0 0 255).wellFormed = false := by decide
theorem test_wellFormed_accepts : (Instr.add 31 0 31).wellFormed = true := by decide
theorem test_config_reference : Config.reference.WellFormed := by decide
theorem test_config_equal_bytes :
    ¬({ Config.reference with opcodes := { OpcodeOf.reference with jmp := 0x07 } } : Config).WellFormed := by decide
theorem test_config_load_byte_taken :
    ¬({ Config.reference with opcodes := { OpcodeOf.reference with igl := 0x01 } } : Config).WellFormed := by decide
theorem test_config_progMax : ¬({ Config.reference with progMax := 2 ^ 32 } : Config).WellFormed := by decide

/-! ### Decoding: words written out from 30_encoding.md R61, R63, as numbers of the opcode table -/

/-- E2 -/
theorem test_decode_hlt : decodeTableWord 32 0x00000000 = some .hlt := by decide
/-- E1 -/
theorem test_decode_load : decodeTableWord 32 0x01000064 = some (.load 0 100) := by decide
/-- AR1 -/
theorem test_decode_add : decodeTableWord 32 0x02010203 = some (.add 1 2 3) := by decide
/-- AR5 -/
theorem test_decode_sub : decodeTableWord 32 0x03010104 = some (.sub 1 1 4) := by decide
/-- R133 -/
theorem test_decode_mul : decodeTableWord 32 0x04010201 = some (.mul 1 2 1) := by decide
/-- E4 -/
theorem test_decode_div : decodeTableWord 32 0x05000102 = some (.div 0 1 2) := by decide
/-- JP1 -/
theorem test_decode_jmp : decodeTableWord 32 0x06020000 = some (.jmp 2) := by decide
/-- JP5 -/
theorem test_decode_jmpf : decodeTableWord 32 0x07000000 = some (.jmpf 0) := by decide
/-- JP8 -/
theorem test_decode_jmpb : decodeTableWord 32 0x08030000 = some (.jmpb 3) := by decide
/-- R151 -/
theorem test_decode_eq : decodeTableWord 32 0x09010200 = some (.eq 1 2) := by decide
/-- R152 -/
theorem test_decode_neq : decodeTableWord 32 0x0A000200 = some (.neq 0 2) := by decide
/-- R153 -/
theorem test_decode_gt : decodeTableWord 32 0x0B010200 = some (.gt 1 2) := by decide
/-- R154 -/
theorem test_decode_lt : decodeTableWord 32 0x0C010200 = some (.lt 1 2) := by decide
/-- R155 -/
theorem test_decode_gte : decodeTableWord 32 0x0D010200 = some (.gte 1 2) := by decide
/-- R156 -/
theorem test_decode_lte : decodeTableWord 32 0x0E010200 = some (.lte 1 2) := by decide
/-- E5: jeq @test, padding 0C -/
theorem test_decode_jeq : decodeTableWord 32 0x0F000C00 = some (.jeq 0) := by decide
/-- JP14 -/
theorem test_decode_jneq : decodeTableWord 32 0x10020000 = some (.jneq 2) := by decide
/-- P2 -/
theorem test_decode_aloc : decodeTableWord 32 0x11060000 = some (.aloc 6) := by decide
/-- ST3 -/
theorem test_decode_inc : decodeTableWord 32 0x1200FFFF = some (.inc 0) := by decide
/-- AR12 -/
theorem test_decode_dec : decodeTableWord 32 0x13050000 = some (.dec 5) := by decide
/-- HI4 -/
theorem test_decode_igl : decodeTableWord 32 0x80010203 = some .igl := by decide
/-- LD2 -/
theorem test_decode_load_negative : decodeTableWord 32 0x011FFFFF = some (.load 31 0xFFFF) := by decide
/-- ST8 -/
theorem test_decode_ff : decodeTableWord 32 0xFFFFFFFF = some .igl := by decide
/-- R101: fewer than four bytes are not decoded. -/
theorem test_decode_truncated : decode Config.reference [0x12, 0x00] = .truncated 2 := by decide
/-- R80 -/
theorem test_encode_load : encode Config.reference (.load 0 100) = [1, 0, 0, 100] := by decide
/-- R80 -/
theorem test_encode_hlt : encode Config.reference .hlt = [0, 0, 0, 0] := by decide

/-! ### One step: vectors of 95_test_vectors.md -/

/-- HI2, HI1 -/
theorem test_hlt : nextIs (step (st [0x00, 0x12, 0x34, 0x56] 0 []))
    (fun t => t.pc == 4 && t.status == .haltedHlt) = true := by decide
/-- R109, P6 -/
theorem test_hlt_resumes : nextIs (step ({ (st [0x00, 0x00, 0x00, 0x00, 0x01, 0x00, 0x00, 0x05] 4 []) with status := .haltedHlt }))
    (fun t => t.x 0 == 5 && t.status == .ready && t.pc == 8) = true := by decide
/-- LD3 -/
theorem test_load_sign : nextIs (step (st [0x01, 0x03, 0x80, 0x00] 0 []))
    (fun t => t.x 3 == BitVec.ofInt 32 (-32768) && t.pc == 4 && t.status == .ready) = true := by decide
/-- LD7 -/
theorem test_load_bad_register : nextIs (step (st [0x01, 0x20, 0x00, 0x01] 0 []))
    (fun t => hasFault .registerOutOfRange 32 t && t.pc == 0) = true := by decide
/-- AR2 -/
theorem test_add_wraps : nextIs (step (st [0x02, 0x01, 0x02, 0x03] 0 [(1, 0x7FFFFFFF), (2, 1)]))
    (fun t => t.x 3 == 0x80000000 && t.pc == 4) = true := by decide
/-- AR3 -/
theorem test_add_same_register : nextIs (step (st [0x02, 0x01, 0x01, 0x01] 0 [(1, 21)]))
    (fun t => t.x 1 == 42) = true := by decide
/-- AR4 -/
theorem test_sub_wraps : nextIs (step (st [0x03, 0x01, 0x02, 0x03] 0 [(1, 0x80000000), (2, 1)]))
    (fun t => t.x 3 == 0x7FFFFFFF) = true := by decide
/-- ST7 with SUB: byte 2 is checked before byte 3 -/
theorem test_sub_bad_register : nextIs (step (st [0x03, 0x01, 0x20, 0x21] 0 []))
    (fun t => hasFault .registerOutOfRange 32 t) = true := by decide
/-- AR9 -/
theorem test_mul_wraps : nextIs (step (st [0x04, 0x01, 0x02, 0x03] 0 [(1, 123456789), (2, 1000)]))
    (fun t => t.x 3 == BitVec.ofInt 32 (-1097262584)) = true := by decide
/-- R133 -/
theorem test_mul_signed : nextIs (step (st [0x04, 0x01, 0x02, 0x01] 0 [(1, BitVec.ofInt 32 (-3)), (2, 7)]))
    (fun t => t.x 1 == BitVec.ofInt 32 (-21)) = true := by decide
/-- DV2 -/
theorem test_div_negative_dividend : nextIs (step (st [0x05, 0x00, 0x01, 0x02] 0 [(0, BitVec.ofInt 32 (-7)), (1, 2)]))
    (fun t => t.x 2 == BitVec.ofInt 32 (-3) && t.rem == 0xFFFFFFFF) = true := by decide
/-- DV10 -/
theorem test_div_overflow : nextIs (step (st [0x05, 0x00, 0x01, 0x02] 0 [(0, 0x80000000), (1, 0xFFFFFFFF)]))
    (fun t => hasFault .divisionOverflow 1 t && t.x 2 == 0 && t.rem == 0) = true := by decide
/-- JP2 -/
theorem test_jmp_unaligned : nextIs (step (st [0x06, 0x02, 0x00, 0x00, 0x00, 0x00, 0x00, 0x00, 0x00, 0x00, 0x00, 0x00, 0x00, 0x00, 0x00, 0x00] 0 [(2, 13)]))
    (fun t => t.pc == 13 && t.status == .ready) = true := by decide
/-- JP4 -/
theorem test_jmp_negative : nextIs (step (st [0x06, 0x02, 0x00, 0x00, 0x00, 0x00, 0x00, 0x00] 0 [(2, BitVec.ofInt 32 (-4))]))
    (fun t => hasFault .pcOutOfBounds (-4) t && t.pc == 0) = true := by decide
/-- JP5 -/
theorem test_jmpf : nextIs (step (st [0x00, 0x00, 0x00, 0x00, 0x07, 0x00, 0x00, 0x00, 0x00, 0x00, 0x00, 0x00, 0x00, 0x00, 0x00, 0x00, 0x00, 0x00, 0x00, 0x00, 0x00, 0x00, 0x00, 0x00] 4 [(0, 8)]))
    (fun t => t.pc == 16) = true := by decide
/-- JP6 -/
theorem test_jmpf_to_len : nextIs (step (st [0x07, 0x00, 0x00, 0x00] 0 []))
    (fun t => hasFault .pcOutOfBounds 4 t) = true := by decide
/-- JP10 -/
theorem test_jmpb_self : nextIs (step (st [0x00, 0x00, 0x00, 0x00, 0x08, 0x01, 0x00, 0x00] 4 [(1, 4)]))
    (fun t => t.pc == 4 && t.status == .ready) = true := by decide
/-- JP9 -/
theorem test_jmpb_outside : nextIs (step (st [0x00, 0x00, 0x00, 0x00, 0x08, 0x03, 0x00, 0x00, 0x00, 0x00, 0x00, 0x00] 4 [(3, 12)]))
    (fun t => hasFault .pcOutOfBounds (-4) t && t.pc == 4) = true := by decide
/-- CM1 -/
theorem test_eq : nextIs (step (st [0x09, 0x01, 0x02, 0x00] 0 [(1, 4), (2, 4)]))
    (fun t => t.eqf && t.pc == 4) = true := by decide
/-- CM14 -/
theorem test_eq_bad_register : nextIs (step ({ (st [0x09, 0x01, 0x22, 0x00] 0 []) with eqf := true }))
    (fun t => hasFault .registerOutOfRange 34 t && t.eqf) = true := by decide
/-- CM4 -/
theorem test_neq : nextIs (step ({ (st [0x0A, 0x01, 0x02, 0x00] 0 [(1, 7), (2, 7)]) with eqf := true }))
    (fun t => !t.eqf) = true := by decide
/-- CM5 -/
theorem test_gt_signed : nextIs (step (st [0x0B, 0x01, 0x02, 0x00] 0 [(1, 0x7FFFFFFF), (2, 0x80000000)]))
    (fun t => t.eqf) = true := by decide
/-- CM7 -/
theorem test_lt_signed : nextIs (step (st [0x0C, 0x01, 0x02, 0x00] 0 [(1, 0xFFFFFFFF), (2, 0)]))
    (fun t => t.eqf) = true := by decide
/-- CM10 -/
theorem test_gte_signed : nextIs (step ({ (st [0x0D, 0x01, 0x02, 0x00] 0 [(1, 0x80000000), (2, 0x7FFFFFFF)]) with eqf := true }))
    (fun t => !t.eqf) = true := by decide
/-- CM11 -/
theorem test_lte_equal : nextIs (step (st [0x0E, 0x01, 0x02, 0x00] 0 [(1, 3), (2, 3)]))
    (fun t => t.eqf) = true := by decide
/-- JP12 -/
theorem test_jeq_not_taken : nextIs (step (st [0x0F, 0x02, 0x00, 0x00] 0 [(2, 999)]))
    (fun t => t.pc == 4 && t.status == .ready) = true := by decide
/-- JP13 -/
theorem test_jeq_checks_field : nextIs (step (st [0x0F, 0x21, 0x00, 0x00] 0 []))
    (fun t => hasFault .registerOutOfRange 33 t) = true := by decide
/-- JP14 -/
theorem test_jneq_taken : nextIs (step (st [0x10, 0x02, 0x00, 0x00, 0x00, 0x00, 0x00, 0x00] 0 [(2, 0)]))
    (fun t => t.pc == 0 && t.status == .ready) = true := by decide
/-- JP15 -/
theorem test_jneq_not_taken : nextIs (step ({ (st [0x10, 0x02, 0x00, 0x00] 0 [(2, 999)]) with eqf := true }))
    (fun t => t.pc == 4 && t.eqf) = true := by decide
/-- E7, second ALOC -/
theorem test_aloc : nextIs (step ({ (st [0x11, 0x01, 0x00, 0x00] 0 [(1, 700)]) with heapLen := 100 }))
    (fun t => t.heapLen == 800 && t.pc == 4) = true := by decide
/-- HP4 -/
theorem test_aloc_exhausted : nextIs (step ({ (st [0x11, 0x00, 0x00, 0x00] 0 [(0, 1)]) with heapLen := 2 ^ 32 - 1 }))
    (fun t => hasFault .heapExhausted 1 t && t.heapLen == 2 ^ 32 - 1) = true := by decide
/-- AR10, with the padding of ST3 -/
theorem test_inc_wraps : nextIs (step (st [0x12, 0x00, 0xFF, 0xFF] 0 [(0, 0x7FFFFFFF)]))
    (fun t => t.x 0 == 0x80000000 && t.pc == 4) = true := by decide
/-- AR11 -/
theorem test_dec_wraps : nextIs (step (st [0x13, 0x05, 0x00, 0x00] 0 [(5, 0x80000000)]))
    (fun t => t.x 5 == 0x7FFFFFFF) = true := by decide
/-- ST8 -/
theorem test_igl : nextIs (step (st [0xFF, 0xFF, 0xFF, 0xFF] 0 []))
    (fun t => t.pc == 4 && t.status == .haltedIllegal) = true := by decide
/-- ST4 -/
theorem test_end_of_program : nextIs (step (st [0x01, 0x00, 0x00, 0x07] 4 []))
    (fun t => t.pc == 4 && t.status == .haltedEnd && t.x 0 == 0) = true := by decide
/-- ST2 -/
theorem test_truncated : nextIs (step (st [0x01, 0x00, 0x00, 0x05, 0x12, 0x00] 4 []))
    (fun t => hasFault .truncatedInstruction 2 t && t.fault.any fun r => r.word == [0x12, 0x00]) = true := by decide
/-- HC2 -/
theorem test_append_keeps_pc :
    hostAppend [0x12, 0, 0, 0] (st [0x01, 0x00, 0x00, 0x07] 4 []) = .done (st [0x01, 0x00, 0x00, 0x07, 0x12, 0, 0, 0] 4 []) := by
  decide
/-- HC3 -/
theorem test_load_keeps_faulted :
    (Command.after (.loadProgram [0, 0, 0, 0]) ((State.reset.raiseFault .divisionByZero 1))).status = .faulted := by
  decide
/-- R36: the ports show every component. -/
theorem test_ports : (st [0, 0] 2 [(3, 9)]).ports =
    { regs := (st [0, 0] 2 [(3, 9)]).regs, heapLen := 0, len := 2, pc := 2, eqf := false, rem := 0,
      status := .ready, fault := none } := rfl
/-- The word of a table row placed in the reset state is what the first step runs. -/
theorem test_withFetchWord : nextIs (step (State.reset.withFetchWord 32 0x01000064)) (fun t => t.x 0 == 100) = true := by
  decide
/-- R31: the status codes. -/
theorem test_status_codes :
    [Status.ready, .haltedHlt, .haltedIllegal, .haltedEnd, .faulted].map Status.code = [0, 1, 2, 3, 4] := by decide
/-- R200: the fault codes. -/
theorem test_fault_codes :
    [FaultKind.registerOutOfRange, .pcOutOfBounds, .divisionByZero, .divisionOverflow, .negativeHeapGrowth,
      .heapExhausted, .truncatedInstruction].map FaultKind.code = [1, 2, 3, 4, 5, 6, 7] := by decide
/-- R74: `add $0 $1` encodes 02 00 01 00. -/
theorem test_assemble_add : assembleLine Config.reference [] (Line.mk none "add" [.reg 0, .reg 1]) =
    .bytes [0x02, 0x00, 0x01, 0x00] := by decide
/-- R78: `jeq @test` with `test` at 12 encodes 0F 00 0C 00. -/
theorem test_assemble_label : assembleLine Config.reference [("test", 12)] (Line.mk none "jeq" [.label "test"]) =
    .bytes [0x0F, 0x00, 0x0C, 0x00] := by decide
/-- R71, R73: an unknown mnemonic is IGL; two integers are too long. -/
theorem test_assemble_unknown : assembleLine Config.reference [] (Line.mk none "HLT" []) = .bytes [0x14, 0, 0, 0] := by
  decide
theorem test_assemble_too_long : assembleLine Config.reference [] (Line.mk none "load" [.int 1, .int 2]) =
    .error .tooManyOperandBytes := by decide
/-- R76: a label declared twice, and one not declared. -/
theorem test_assemble_duplicate :
    assemble Config.reference [Line.mk (some "a") "hlt" [], Line.mk (some "a") "hlt" []] = .error (.duplicateLabel "a") := by
  decide
theorem test_assemble_unresolved :
    assemble Config.reference [Line.mk none "load" [.reg 0, .label "b"]] = .error (.unresolvedLabel "b") := by decide
/-- 95_test_vectors.md E5: the source's fixture and its 28 bytes. -/
theorem test_assemble_fixture :
    assembleText Config.reference
        "load $0 #100\nload $1 #1\nload $2 #0\ntest: inc $0\nneq $0 $2\njeq @test\nhlt" =
      .bytes [0x01, 0, 0, 0x64, 0x01, 0x01, 0, 0x01, 0x01, 0x02, 0, 0, 0x12, 0, 0, 0, 0x0A, 0, 0x02, 0,
        0x0F, 0, 0x0C, 0, 0, 0, 0, 0] := by decide
/-- R70: a malformed operand fails the whole parse. -/
theorem test_assemble_malformed : assembleText Config.reference "hlt\ninc 0" = .error .malformedSource := by decide

/-! ### Witnesses: states and operands that meet the hypotheses of the statements -/

/-- `add $1 $2 $3` at pc 0 with x1 = 5, x2 = -7. -/
def wAdd : State := st [0x02, 0x01, 0x02, 0x03] 0 [(1, 5), (2, BitVec.ofInt 32 (-7))]
/-- `jmp $2` at pc 0 of an eight-byte program, with x2 = 0: a jump to itself. -/
def wJmp : State := st [0x06, 0x02, 0, 0, 0, 0, 0, 0] 0 []
/-- `jeq $2` at pc 0 with the equal flag false: it takes no jump. -/
def wJeq : State := st [0x0F, 0x02, 0, 0] 0 []
/-- `div $0 $1 $2` with x1 = 0. -/
def wDivZero : State := st [0x05, 0x00, 0x01, 0x02] 0 [(0, 5)]
/-- A FAULTED engine. -/
def wFaulted : State := wDivZero.raiseFault .divisionByZero 1
/-- The end of a four-byte program. -/
def wEnd : State := st [0x01, 0x00, 0x00, 0x07] 4 []
/-- `hlt` at pc 0. -/
def wHlt : State := st [0, 0, 0, 0] 0 []

theorem wAdd_runs : wAdd.Runs (.add 1 2 3) := ⟨by decide, 0x02, 0x01, 0x02, 0x03, by decide, by decide⟩
theorem wJmp_runs : wJmp.Runs (.jmp 2) := ⟨by decide, 0x06, 0x02, 0, 0, by decide, by decide⟩
theorem wJeq_runs : wJeq.Runs (.jeq 2) := ⟨by decide, 0x0F, 0x02, 0, 0, by decide, by decide⟩
theorem wHlt_runs : wHlt.Runs .hlt := ⟨by decide, 0, 0, 0, 0, by decide, by decide⟩

theorem witness_StepKeepsLegalStates :
    wAdd.Inv ∧ ∃ t, step wAdd = .next t :=
  ⟨by decide, _, rfl⟩
theorem witness_HostCommandsKeepLegalStates :
    wAdd.Inv ∧ wFaulted.Inv :=
  by decide
theorem witness_EveryReachableStateIsLegal :
    Reachable (Command.after (.loadProgram [0, 0, 0, 0]) (State.resetWith Config.reference)) :=
  .command _ _ (.created _ (by decide))
theorem witness_DecodeOfEncodeGivesBack :
    Config.reference.WellFormed :=
  by decide
theorem witness_CanonicalWordsEncodeBack :
    Config.reference.WellFormed ∧
      (decodeOpcode Config.reference 0x14).format = .n ∧ (decodeOpcode Config.reference 0x14 = .igl → (0x14 : Byte) = 0x14) ∧
      (decodeOpcode Config.reference 0x06).format = .r ∧ (decodeOpcode Config.reference 0x09).format = .rr ∧
      (decodeOpcode Config.reference 0x01).format = .ri ∧ (decodeOpcode Config.reference 0x02).format = .rrr :=
  by decide
theorem witness_DecoderIsTotalOnOpcodeBytes :
    Config.reference.WellFormed ∧ decodeOpcode Config.reference 0x13 = .dec ∧
      decodeOpcode Config.reference 0x14 = .igl :=
  by decide
theorem witness_PaddingIsIgnored :
    (decodeOpcode Config.reference 0x00).format = .n ∧ (decodeOpcode Config.reference 0x13).format = .r ∧
      (decodeOpcode Config.reference 0x0E).format = .rr ∧ ([9, 9, 9, 9] : Memory).length = wAdd.prog.length ∧
      ∃ t, exec (.add 1 2 3) wAdd = .next t :=
  ⟨by decide, by decide, by decide, by decide, _, rfl⟩
theorem witness_StepExecutesTheDecodedInstruction :
    wAdd.status ≠ .faulted ∧ wAdd.prog.Holds4 wAdd.pc.toNat 0x02 0x01 0x02 0x03 ∧
      decode wAdd.cfg [0x02, 0x01, 0x02, 0x03] = .instr (.add 1 2 3) [] :=
  by decide
theorem witness_EncodedInstructionAtPcExecutes :
    wAdd.cfg.WellFormed ∧ wAdd.status ≠ .faulted ∧
      wAdd.prog.drop wAdd.pc.toNat = encode wAdd.cfg (.add 1 2 3) ++ [] :=
  by decide
theorem witness_EndOfProgramWritesOnlyStatus :
    (wEnd.status ≠ .faulted ∧ wEnd.prog.length ≤ wEnd.pc.toNat) ∧
      (wAdd.status ≠ .faulted ∧ wAdd.pc.toNat < wAdd.prog.length ∧ ∃ t, step wAdd = .next t) :=
  ⟨by decide, by decide, by decide, _, rfl⟩
theorem witness_TruncatedFetchFaults :
    ((st [0x12] 0 []).status ≠ .faulted ∧ (st [0x12] 0 []).pc.toNat < (st [0x12] 0 []).prog.length ∧
      (st [0x12] 0 []).prog.length < (st [0x12] 0 []).pc.toNat + 4) ∧
    (st [1, 2, 3] 0 []).prog.length < (st [1, 2, 3] 0 []).pc.toNat + 4 :=
  by decide
theorem witness_FaultIsStickyUntilReset :
    wFaulted.status = .faulted ∧ Command.reset ∉ [Command.step, .append [0], .loadProgram []] :=
  by decide
theorem witness_EveryStepReturnsOneResult :
    wFaulted.Inv ∧ wEnd.Inv ∧ wHlt.Inv :=
  by decide
theorem witness_FaultsArePrecise :
    wDivZero.status ≠ .faulted ∧ step wDivZero = .next wFaulted ∧ wFaulted.status = .faulted :=
  ⟨by decide, rfl, rfl⟩
theorem witness_StatusTellsTheResult :
    wHlt.status ≠ .faulted ∧ wHlt.Runs .hlt ∧ ∃ t, step wHlt = .next t :=
  ⟨by decide, wHlt_runs, _, rfl⟩
theorem witness_NormalHaltsAreNotSticky :
    (wAdd.status ≠ .faulted ∧ Status.haltedEnd ≠ .faulted) ∧ (wHlt.Runs .hlt ∧ ∃ t, step wHlt = .next t) ∧
      ∃ t, step wEnd = .next t ∧ t.status = .haltedEnd :=
  ⟨by decide, ⟨wHlt_runs, _, rfl⟩, _, rfl, rfl⟩
theorem witness_RegisterFieldsAreCheckedFirst :
    firstBadField (Instr.add 31 32 33).regFields = some 32 ∧ firstBadField (Instr.jeq 255).regFields = some 255 ∧
      firstBadField (Instr.div 0 1 31).regFields = none ∧ wDivZero.fault = none ∧
      ∃ t r, exec (.div 0 1 31) wDivZero = .next t ∧ t.fault = some r :=
  ⟨by decide, by decide, by decide, by decide, _, _, rfl, rfl⟩
theorem witness_RegistersReadAndWrittenByInstruction :
    (∃ t, exec (.add 1 2 3) wAdd = .next t) ∧ (∀ d, destField (.add 1 2 3) = some d → d.toNat ≠ 31) ∧
      ∀ r ∈ sourceFields (.add 1 2 3), r.toNat ≠ 3 :=
  ⟨⟨_, rfl⟩, by simp [destField], by decide⟩
theorem witness_EqualFlagWrittenByComparisonsOnly :
    (isComparison (.jeq 2) = false ∧ ∃ t, exec (.jeq 2) wAdd = .next t) ∧
      ((0 : Byte).toNat < 32 ∧ (31 : Byte).toNat < 32 ∧ (∃ t, exec (.eq 0 31) wAdd = .next t) ∧
        (∃ t, exec (.neq 0 31) wAdd = .next t) ∧ (∃ t, exec (.gt 0 31) wAdd = .next t) ∧
        (∃ t, exec (.lt 0 31) wAdd = .next t) ∧ (∃ t, exec (.gte 0 31) wAdd = .next t) ∧
        (∃ t, exec (.lte 0 31) wAdd = .next t)) ∧
      readsFlag (.lt 1 2) = false ∧ ∃ t, exec (.lt 1 2) wAdd = .next t :=
  ⟨⟨rfl, _, rfl⟩, ⟨by decide, by decide, ⟨_, rfl⟩, ⟨_, rfl⟩, ⟨_, rfl⟩, ⟨_, rfl⟩, ⟨_, rfl⟩, _, rfl⟩, rfl, _, rfl⟩
theorem witness_RemainderInfluencesNoRun :
    ∃ t, exec (.div 1 2 3) wAdd = .next t ∧ t.rem ≠ ({ wAdd with rem := 9 } : State).rem ∧
      ∃ u, exec (.div 1 2 3) { wAdd with rem := 9 } = .next u ∧ u.rem ≠ 9 :=
  ⟨_, rfl, by decide, _, rfl, by decide⟩
theorem witness_NoStepWritesTheProgram :
    (∃ t, hostLoadProgram [0, 0, 0, 0] wAdd = .done t) ∧ (∃ t, hostAppend [0, 0, 0, 0] wAdd = .done t) ∧
      0 < wAdd.prog.length ∧ wAdd.Runs (.add 1 2 3) :=
  ⟨⟨_, rfl⟩, ⟨_, rfl⟩, by decide, wAdd_runs⟩
theorem witness_LoadProgramReplacesTheBuffer :
    ([0, 0] : List Byte).length ≤ ({ Config.reference with progMax := 2 } : Config).progMax ∧
      ({ Config.reference with progMax := 2 } : Config).progMax < ([0, 0, 0] : List Byte).length :=
  by decide
theorem witness_AppendExtendsTheBuffer :
    wAdd.prog.length + ([0, 0, 0] : List Byte).length ≤ wAdd.cfg.progMax ∧ wAdd.pc.toNat < wAdd.prog.length ∧
      ({ Config.reference with progMax := 4 } : Config).progMax < wAdd.prog.length + ([0] : List Byte).length :=
  by decide
theorem witness_AppendAfterEndResumes :
    wEnd.status ≠ .faulted ∧ wEnd.pc.toNat = wEnd.prog.length ∧
      decode wEnd.cfg [0x12, 0, 0, 0] = .instr (.inc 0) [] ∧
      ∃ t u, step wEnd = .next t ∧ hostAppend [0x12, 0, 0, 0] t = .done u :=
  ⟨by decide, by decide, by decide, _, _, rfl, rfl⟩
theorem witness_RunReturnsAtTheFirstHalt :
    ∃ t, RunEnds wHlt t ∧ t.status ≠ .ready :=
  ⟨_, ⟨1, rfl⟩, by decide⟩
theorem witness_SelfJumpRunsForever :
    (2 : Byte).toNat < 32 ∧ wJmp.Runs (.jmp 2) ∧ wJmp.regs[(2 : Byte).toNat].toInt = wJmp.pc.toNat :=
  ⟨by decide, wJmp_runs, by decide⟩
theorem witness_SequentialPcNeverWraps :
    wAdd.Inv ∧ wAdd.Runs (.add 1 2 3) ∧ takesJump wAdd.eqf (.add 1 2 3) = false ∧
      (∃ t, step wAdd = .next t ∧ t.status ≠ .faulted) ∧
      wJeq.Inv ∧ wJeq.Runs (.jeq 2) ∧ takesJump wJeq.eqf (.jeq 2) = false ∧
      ∃ t, step wJeq = .next t ∧ t.status ≠ .faulted :=
  ⟨by decide, wAdd_runs, rfl, ⟨_, rfl, by decide⟩, by decide, wJeq_runs, rfl, _, rfl, by decide⟩
theorem witness_TakenJumpNeverReachesTheEnd :
    wJmp.Inv ∧ wJmp.Runs (.jmp 2) ∧
      ∃ t u, step wJmp = .next t ∧ t.status ≠ .faulted ∧ step t = .next u :=
  ⟨by decide, wJmp_runs, _, _, rfl, by decide, rfl⟩
theorem witness_LabelReachesPcThroughLoad :
    (31 : Byte).toNat < 32 ∧ Config.reference.WellFormed ∧
      List.lookup "end" [("end", 0x7FFC)] = some 0x7FFC ∧ 0x7FFC < 0x8000 :=
  by decide
theorem witness_LoadSignExtendsImmediate :
    (31 : Byte).toNat < 32 ∧ firstBadField [32] = some 32 :=
  by decide
theorem witness_AddWrapsIntoDestination :
    (31 : Byte).toNat < 32 ∧ firstBadField [31, 0, 32] = some 32 :=
  by decide
theorem witness_SubWrapsIntoDestination :
    (31 : Byte).toNat < 32 ∧ firstBadField [31, 0, 32] = some 32 :=
  by decide
theorem witness_MulWrapsIntoDestination :
    (31 : Byte).toNat < 32 ∧ firstBadField [31, 0, 32] = some 32 :=
  by decide
theorem witness_DivWritesQuotientAndRemainder :
    (31 : Byte).toNat < 32 ∧ firstBadField [31, 255, 32] = some 255 ∧ wDivZero.regs[(1 : Byte).toNat].toInt = 0 ∧
      ((st [] 0 [(0, 0x80000000), (1, 0xFFFFFFFF)]).regs[(0 : Byte).toNat].toInt = -2 ^ 31 ∧
        (st [] 0 [(0, 0x80000000), (1, 0xFFFFFFFF)]).regs[(1 : Byte).toNat].toInt = -1) ∧
      ((st [] 0 [(0, 0x80000001), (1, 0xFFFFFFFF)]).regs[(1 : Byte).toNat].toInt ≠ 0 ∧
        ¬((st [] 0 [(0, 0x80000001), (1, 0xFFFFFFFF)]).regs[(0 : Byte).toNat].toInt = -2 ^ 31 ∧
          (st [] 0 [(0, 0x80000001), (1, 0xFFFFFFFF)]).regs[(1 : Byte).toNat].toInt = -1)) :=
  by decide
theorem witness_DivisionLaw :
    (1 : Byte).toNat < 32 ∧ (2 : Byte).toNat < 32 ∧ wAdd.regs[(2 : Byte).toNat].toInt ≠ 0 ∧
      ¬(wAdd.regs[(1 : Byte).toNat].toInt = -2 ^ 31 ∧ wAdd.regs[(2 : Byte).toNat].toInt = -1) :=
  by decide
theorem witness_IncAddsOne :
    (31 : Byte).toNat < 32 ∧ firstBadField [32] = some 32 :=
  by decide
theorem witness_DecSubtractsOne :
    (31 : Byte).toNat < 32 ∧ firstBadField [32] = some 32 :=
  by decide
theorem witness_EqSetsFlag :
    (0 : Byte).toNat < 32 ∧ (31 : Byte).toNat < 32 ∧ firstBadField [31, 32] = some 32 :=
  by decide
theorem witness_NeqSetsFlag :
    (0 : Byte).toNat < 32 ∧ (31 : Byte).toNat < 32 ∧ firstBadField [31, 32] = some 32 :=
  by decide
theorem witness_GtSetsFlag :
    (0 : Byte).toNat < 32 ∧ (31 : Byte).toNat < 32 ∧ firstBadField [31, 32] = some 32 :=
  by decide
theorem witness_LtSetsFlag :
    (0 : Byte).toNat < 32 ∧ (31 : Byte).toNat < 32 ∧ firstBadField [31, 32] = some 32 :=
  by decide
theorem witness_GteSetsFlag :
    (0 : Byte).toNat < 32 ∧ (31 : Byte).toNat < 32 ∧ firstBadField [31, 32] = some 32 :=
  by decide
theorem witness_LteSetsFlag :
    (0 : Byte).toNat < 32 ∧ (31 : Byte).toNat < 32 ∧ firstBadField [31, 32] = some 32 :=
  by decide
theorem witness_IglHaltsIllegal :
    (∀ op ∈ Opcode.executable, Config.reference.opcodes.byte op ≠ 0x14) ∧ 0x14 ≤ (0x14 : Byte).toNat ∧
      0x14 ≤ (0xFF : Byte).toNat :=
  by decide
/-- `wJmp` with another value in register 2; the target is at the first byte, at the last, below and at `len`. -/
def wTo (v : Word) : State := wJmp.setX 2 v
theorem witness_JmpGoesToRegister :
    (2 : Byte).toNat < 32 ∧ firstBadField [32] = some 32 ∧
      (0 ≤ (wTo (0)).regs[(2 : Byte).toNat].toInt ∧ (wTo (0)).regs[(2 : Byte).toNat].toInt < wJmp.prog.length) ∧ (0 ≤ (wTo (7)).regs[(2 : Byte).toNat].toInt ∧ (wTo (7)).regs[(2 : Byte).toNat].toInt < wJmp.prog.length) ∧ (wTo (BitVec.ofInt 32 (-1))).regs[(2 : Byte).toNat].toInt < 0 ∧ wJmp.prog.length ≤ (wTo (8)).regs[(2 : Byte).toNat].toInt :=
  by decide
theorem witness_JmpfGoesForward :
    (2 : Byte).toNat < 32 ∧ firstBadField [32] = some 32 ∧
      (0 ≤ (wJmp.pc.toNat + wJmp.cfg.relBase + (wTo (BitVec.ofInt 32 (-4))).regs[(2 : Byte).toNat].toInt) ∧ (wJmp.pc.toNat + wJmp.cfg.relBase + (wTo (BitVec.ofInt 32 (-4))).regs[(2 : Byte).toNat].toInt) < wJmp.prog.length) ∧ (0 ≤ (wJmp.pc.toNat + wJmp.cfg.relBase + (wTo (3)).regs[(2 : Byte).toNat].toInt) ∧ (wJmp.pc.toNat + wJmp.cfg.relBase + (wTo (3)).regs[(2 : Byte).toNat].toInt) < wJmp.prog.length) ∧ (wJmp.pc.toNat + wJmp.cfg.relBase + (wTo (BitVec.ofInt 32 (-5))).regs[(2 : Byte).toNat].toInt) < 0 ∧ wJmp.prog.length ≤ (wJmp.pc.toNat + wJmp.cfg.relBase + (wTo (4)).regs[(2 : Byte).toNat].toInt) :=
  by decide
theorem witness_JmpbGoesBackward :
    (2 : Byte).toNat < 32 ∧ firstBadField [32] = some 32 ∧
      (0 ≤ (wJmp.pc.toNat + wJmp.cfg.relBase - (wTo (4)).regs[(2 : Byte).toNat].toInt) ∧ (wJmp.pc.toNat + wJmp.cfg.relBase - (wTo (4)).regs[(2 : Byte).toNat].toInt) < wJmp.prog.length) ∧ (0 ≤ (wJmp.pc.toNat + wJmp.cfg.relBase - (wTo (BitVec.ofInt 32 (-3))).regs[(2 : Byte).toNat].toInt) ∧ (wJmp.pc.toNat + wJmp.cfg.relBase - (wTo (BitVec.ofInt 32 (-3))).regs[(2 : Byte).toNat].toInt) < wJmp.prog.length) ∧ (wJmp.pc.toNat + wJmp.cfg.relBase - (wTo (5)).regs[(2 : Byte).toNat].toInt) < 0 ∧ wJmp.prog.length ≤ (wJmp.pc.toNat + wJmp.cfg.relBase - (wTo (BitVec.ofInt 32 (-4))).regs[(2 : Byte).toNat].toInt) :=
  by decide
theorem witness_JeqJumpsOnSetFlag :
    (2 : Byte).toNat < 32 ∧ firstBadField [32] = some 32 ∧
      (wJmp.setEqf true).eqf = true ∧ wJmp.eqf = false ∧ (0 ≤ (wTo (0)).regs[(2 : Byte).toNat].toInt ∧ (wTo (0)).regs[(2 : Byte).toNat].toInt < wJmp.prog.length) ∧ (0 ≤ (wTo (7)).regs[(2 : Byte).toNat].toInt ∧ (wTo (7)).regs[(2 : Byte).toNat].toInt < wJmp.prog.length) ∧ (wTo (BitVec.ofInt 32 (-1))).regs[(2 : Byte).toNat].toInt < 0 ∧ wJmp.prog.length ≤ (wTo (8)).regs[(2 : Byte).toNat].toInt :=
  by decide
theorem witness_JneqJumpsOnClearFlag :
    (2 : Byte).toNat < 32 ∧ firstBadField [32] = some 32 ∧
      wJmp.eqf = false ∧ (wJmp.setEqf true).eqf = true ∧ (0 ≤ (wTo (0)).regs[(2 : Byte).toNat].toInt ∧ (wTo (0)).regs[(2 : Byte).toNat].toInt < wJmp.prog.length) ∧ (0 ≤ (wTo (7)).regs[(2 : Byte).toNat].toInt ∧ (wTo (7)).regs[(2 : Byte).toNat].toInt < wJmp.prog.length) ∧ (wTo (BitVec.ofInt 32 (-1))).regs[(2 : Byte).toNat].toInt < 0 ∧ wJmp.prog.length ≤ (wTo (8)).regs[(2 : Byte).toNat].toInt :=
  by decide
theorem witness_SourceLinesStandAlone :
    (([] : List Char) = [] ∧ ['a', '\n'].getLast? = some '\n' ∧ ['\n', 'a'].head? = some '\n') ∧
      '\n' ∉ ['i', 'n', 'c', ' ', '0'] ∧ '\n' ∉ [' '] ∧ (∀ ch ∈ [' '], ch.isWhitespace) ∧
      tokensOf ['i', 'n', 'c', ' ', '0'] ≠ [] ∧ parseTokens (tokensOf ['i', 'n', 'c', ' ', '0']) = none :=
  ⟨by decide, by decide, by decide, by simp, List.cons_ne_nil _ _, by decide⟩
theorem witness_AlocGrowsTheHeap :
    (2 : Byte).toNat < 32 ∧ firstBadField [32] = some 32 ∧ (wTo (BitVec.ofInt 32 (-1))).regs[(2 : Byte).toNat].toInt < 0 ∧
      (0 ≤ (wTo 1).regs[(2 : Byte).toNat].toInt ∧
        (Config.reference.heapMax : Int) < ((2 ^ 32 - 1 : Nat) : Int) + (wTo 1).regs[(2 : Byte).toNat].toInt) ∧
      (0 ≤ (wTo 1).regs[(2 : Byte).toNat].toInt ∧
        ((2 ^ 32 - 2 : Nat) : Int) + (wTo 1).regs[(2 : Byte).toNat].toInt ≤ Config.reference.heapMax) :=
  by decide

end Sys2Proof.Tests
end

section
/-! The numbers behind the notation of 00_scope.md R10: what `wrap32`, `u32` and `sext16` evaluate to. -/

namespace Sys2Proof.Machine

/-- Read signed, `wrap32 v` is the balanced remainder of `v` modulo 2^32. -/
theorem wrap32_toInt (v : Int) : (wrap32 v).toInt = v.bmod (2 ^ 32) := BitVec.toInt_ofInt v

theorem dvd_sub_wrap32_toInt (v : Int) : (2 ^ 32 : Int) ∣ v - (wrap32 v).toInt := by
  rw [wrap32_toInt]
  exact Int.dvd_self_sub_bmod

/-- Read unsigned, `u32 v` is the remainder of `v` modulo 2^32, for a negative `v` too. -/
theorem u32_toNat (v : Int) : ((u32 v).toNat : Int) = v % 2 ^ 32 := by
  rw [u32, BitVec.toNat_ofInt]
  exact Int.toNat_of_nonneg (Int.emod_nonneg v (by decide))

/-- Sign extension keeps the signed value (30_encoding.md R65). -/
theorem sext16_toInt (h : Half) : (sext16 h).toInt = h.toInt :=
  BitVec.toInt_signExtend_of_le (by decide)

/-- The signed value by bit 15, the sign bit of a half. -/
theorem half_toInt_eq_ite (h : Half) :
    h.toInt = if h.getLsbD 15 then (h.toNat : Int) - 2 ^ 16 else (h.toNat : Int) := by
  rw [BitVec.toInt_eq_msb_cond, BitVec.msb_eq_getLsbD_last]
  rfl

/-- Settles O31: `wrap32` and `u32` are remainders modulo 2^32 (balanced and nonnegative), `sext16` keeps the
signed value of a half, and `be16` cuts nothing off. -/
theorem wrapAndSignExtensionValues : Obligations.WrapAndSignExtensionValues := by
  refine ⟨fun v => ⟨BitVec.le_toInt _, BitVec.toInt_lt, dvd_sub_wrap32_toInt v⟩, u32_toNat, fun h => ?_, be16_toNat⟩
  rw [sext16_toInt]
  have hlow : -32768 ≤ h.toInt := BitVec.le_toInt h
  have hhigh : h.toInt < 32768 := BitVec.toInt_lt
  exact ⟨half_toInt_eq_ite h, hlow, by omega⟩

end Sys2Proof.Machine
end

section
/-! What one instruction can do, said once. An `Effect` is one outcome of the execute phase (10_state.md R22, R27,
R28; 40_fetch_decode_execute.md R106 to R108). `exec_hasEffect` gives each instruction at each state one effect, which
the instruction is allowed and which depends only on what the instruction reads. What steps keep, what instructions
leave unchanged and what they do not read all follow from it. -/

namespace Sys2Proof.Machine

/-! ### Effects -/

/-- The outcomes of the execute phase. -/
inductive Effect where
  | fault (kind : FaultKind) (info : Int)
  | jump (target : Int)
  | halt (st : Status)
  | write (d : Fin 32) (v : Word)
  | divide (d : Fin 32) (q r : Word)
  | flag (b : Bool)
  | grow (n : Nat)
  | skip

/-- The state an effect leaves. -/
def Effect.apply (s : State) : Effect → State
  | .fault kind info => s.raiseFault kind info
  | .jump target => (s.setPc (BitVec.ofInt 32 target)).setStatus .ready
  | .halt st => s.haltAfter st
  | .write d v => (s.setX d v).continueNext
  | .divide d q r => ((s.setX d q).setRem r).continueNext
  | .flag b => (s.setEqf b).continueNext
  | .grow n => (s.setHeapLen (s.heapLen + n)).continueNext
  | .skip => s.continueNext

/-- The effects that instruction `i` may have at state `s`. A fault of a fetched instruction is to have a well-formed
record (60_exceptions.md R200); that HeapExhausted records a positive growth rests on `heap_len <= HEAP_MAX`. -/
def Effect.Allowed (i : Instr) (s : State) : Effect → Prop
  | .fault kind info => ∀ (pc : Word) (word : List Byte), word.length = 4 → s.heapLen ≤ s.cfg.heapMax →
      FaultRecord.wf { kind, pc, word, info } = true
  | .jump target => takesJump s.eqf i = true ∧ 0 ≤ target ∧ target < s.len
  | .halt st => (i = .hlt ∧ st = .haltedHlt) ∨ (i = .igl ∧ st = .haltedIllegal)
  | .write d _ => ∃ b, destField i = some b ∧ b.toNat = d
  | .divide d _ _ => ∃ r1 r2 r3, i = .div r1 r2 r3 ∧ r3.toNat = d
  | .flag _ => isComparison i = true
  | .grow n => (∃ r, i = .aloc r) ∧ s.heapLen + n ≤ s.cfg.heapMax
  | .skip => readsFlag i = true ∧ takesJump s.eqf i = false

/-- `s'` agrees with `s` in all that instruction `i` reads: its source registers (10_state.md R22), the equal flag
for the conditional jumps (R27), and the control state. -/
structure SameView (i : Instr) (s s' : State) : Prop where
  pc : s'.pc = s.pc
  len : s'.len = s.len
  heapLen : s'.heapLen = s.heapLen
  cfg : s'.cfg = s.cfg
  source : ∀ b ∈ sourceFields i, ∀ hb : b.toNat < 32, s'.x ⟨b.toNat, hb⟩ = s.x ⟨b.toNat, hb⟩
  eqf : readsFlag i = true → s'.eqf = s.eqf

theorem SameView.refl (i : Instr) (s : State) : SameView i s s :=
  ⟨rfl, rfl, rfl, rfl, fun _ _ _ => rfl, fun _ => rfl⟩

theorem SameView.relativeBase {i : Instr} {s s' : State} (h : SameView i s s') :
    s'.relativeBase = s.relativeBase := by
  simp only [State.relativeBase, h.pc, h.cfg]

/-- The meaning `m` has one effect at `s`: an effect allowed to `i`, the same in every state that `i` cannot tell
from `s`. -/
def HasEffect (i : Instr) (s : State) (m : State → Result) : Prop :=
  ∃ e : Effect, e.Allowed i s ∧ ∀ s', SameView i s s' → m s' = .next (e.apply s')

/-! ### The effect of each shared operation -/

section
variable {i : Instr} {s : State}

theorem hasEffect_withReg {b : Byte} {k : State → Fin 32 → Result} {m : State → Result}
    (hm : ∀ s', m s' = withReg b s' (k s'))
    (h : ∀ hb : b.toNat < 32, HasEffect i s fun s' => k s' ⟨b.toNat, hb⟩) : HasEffect i s m := by
  rcases Nat.lt_or_ge b.toNat 32 with hb | hb
  · obtain ⟨e, he, happly⟩ := h hb
    exact ⟨e, he, fun s' hs => (hm s').trans ((withReg_of_lt b s' (k s') hb).trans (happly s' hs))⟩
  · refine ⟨.fault .registerOutOfRange b.toNat, fun _ word hw _ => ?_,
      fun s' _ => (hm s').trans (withReg_of_ge b s' (k s') hb)⟩
    have := b.isLt
    simp only [FaultRecord.wf, decide_eq_true_eq]
    omega

theorem hasEffect_withR {r : Byte} {k : State → Fin 32 → State} {m : State → Result}
    (hm : ∀ s', m s' = withR r s' (k s'))
    (h : ∀ hr : r.toNat < 32, HasEffect i s fun s' => .next (k s' ⟨r.toNat, hr⟩)) : HasEffect i s m :=
  hasEffect_withReg hm h

theorem hasEffect_withRR {r1 r2 : Byte} {k : State → Fin 32 → Fin 32 → State} {m : State → Result}
    (hm : ∀ s', m s' = withRR r1 r2 s' (k s'))
    (h : ∀ (h1 : r1.toNat < 32) (h2 : r2.toNat < 32),
      HasEffect i s fun s' => .next (k s' ⟨r1.toNat, h1⟩ ⟨r2.toNat, h2⟩)) : HasEffect i s m :=
  hasEffect_withReg hm fun h1 => hasEffect_withReg (fun _ => rfl) fun h2 => h h1 h2

theorem hasEffect_withRRR {r1 r2 r3 : Byte} {k : State → Fin 32 → Fin 32 → Fin 32 → State} {m : State → Result}
    (hm : ∀ s', m s' = withRRR r1 r2 r3 s' (k s'))
    (h : ∀ (h1 : r1.toNat < 32) (h2 : r2.toNat < 32) (h3 : r3.toNat < 32),
      HasEffect i s fun s' => .next (k s' ⟨r1.toNat, h1⟩ ⟨r2.toNat, h2⟩ ⟨r3.toNat, h3⟩)) : HasEffect i s m :=
  hasEffect_withReg hm fun h1 =>
    hasEffect_withReg (fun _ => rfl) fun h2 => hasEffect_withReg (fun _ => rfl) fun h3 => h h1 h2 h3

theorem hasEffect_wrappedRRR (f : Int → Int → Int) (r1 r2 r3 : Byte) (hsrc : sourceFields i = [r1, r2])
    (hdest : destField i = some r3) : HasEffect i s (wrappedRRR f r1 r2 r3) := by
  refine hasEffect_withRRR (fun _ => rfl) fun h1 h2 h3 =>
    ⟨.write ⟨r3.toNat, h3⟩ (wrap32 (f (s.x ⟨r1.toNat, h1⟩).toInt (s.x ⟨r2.toNat, h2⟩).toInt)),
      ⟨r3, hdest, rfl⟩, fun s' hs => ?_⟩
  simp [Effect.apply, hs.source r1 (by simp [hsrc]), hs.source r2 (by simp [hsrc])]

theorem hasEffect_wrappedR (f : Int → Int) (r : Byte) (hsrc : sourceFields i = [r]) (hdest : destField i = some r) :
    HasEffect i s (wrappedR f r) := by
  refine hasEffect_withR (fun _ => rfl) fun hr =>
    ⟨.write ⟨r.toNat, hr⟩ (wrap32 (f (s.x ⟨r.toNat, hr⟩).toInt)), ⟨r, hdest, rfl⟩, fun s' hs => ?_⟩
  simp [Effect.apply, hs.source r (by simp [hsrc])]

theorem hasEffect_compareRegs (c : Relation) (r1 r2 : Byte) (hsrc : sourceFields i = [r1, r2])
    (hi : isComparison i = true) : HasEffect i s (compareRegs c r1 r2) := by
  refine hasEffect_withRR (fun _ => rfl) fun h1 h2 =>
    ⟨.flag (c.holds (s.x ⟨r1.toNat, h1⟩) (s.x ⟨r2.toNat, h2⟩)), hi, fun s' hs => ?_⟩
  simp [Effect.apply, hs.source r1 (by simp [hsrc]), hs.source r2 (by simp [hsrc])]

/-- A taken jump whose target is made of what the instruction reads. -/
theorem hasEffect_jumpTo (target : State → Int) (ht : takesJump s.eqf i = true)
    (hsame : ∀ s', SameView i s s' → target s' = target s) :
    HasEffect i s fun s' => .next (s'.jumpTo (target s')) := by
  by_cases h : 0 ≤ target s ∧ target s < s.len
  · refine ⟨.jump (target s), ⟨ht, h⟩, fun s' hs => ?_⟩
    simp only [hsame s' hs, State.jumpTo_inside s' _ h.1 (hs.len ▸ h.2), Effect.apply]
  · refine ⟨.fault .pcOutOfBounds (target s), fun _ _ hw _ => by simpa [FaultRecord.wf] using hw, fun s' hs => ?_⟩
    have hlen := hs.len
    simp only [hsame s' hs, State.jumpTo_outside s' (target s) (by omega), Effect.apply]

/-- A jump to a target made of the register `r` and of what the instruction sees of the state. -/
theorem hasEffect_jumpToReg (target : State → Word → Int) (r : Byte) (hsrc : sourceFields i = [r])
    (ht : takesJump s.eqf i = true) (hsame : ∀ s' v, SameView i s s' → target s' v = target s v) :
    HasEffect i s fun s' => withR r s' fun j => s'.jumpTo (target s' (s'.x j)) := by
  refine hasEffect_withR (fun _ => rfl) fun hr =>
    hasEffect_jumpTo (fun s' => target s' (s'.x ⟨r.toNat, hr⟩)) ht fun s' hs => ?_
  rw [hsame s' _ hs, hs.source r (by simp [hsrc])]

theorem hasEffect_jumpIf (cond : State → Bool) (r : Byte) (hsrc : sourceFields i = [r]) (hi : readsFlag i = true)
    (ht : takesJump s.eqf i = cond s) (hsame : ∀ s', s'.eqf = s.eqf → cond s' = cond s) :
    HasEffect i s fun s' => jumpIf (cond s') r s' := by
  refine hasEffect_withR (fun _ => rfl) fun hr => ?_
  cases hc : cond s with
  | true =>
    obtain ⟨e, he, happly⟩ := hasEffect_jumpTo (fun s' => (s'.x ⟨r.toNat, hr⟩).toInt) (ht.trans hc)
      fun s' hs => by simp [hs.source r (by simp [hsrc])]
    exact ⟨e, he, fun s' hs => by simpa [hsame s' (hs.eqf hi), hc] using happly s' hs⟩
  | false => exact ⟨.skip, ⟨hi, ht.trans hc⟩, fun s' hs => by simp [hsame s' (hs.eqf hi), hc, Effect.apply]⟩

end

/-! ### The effect of the instructions with a meaning of their own -/

theorem hasEffect_execLoad (r : Byte) (imm : Half) (s : State) : HasEffect (.load r imm) s (execLoad r imm) :=
  hasEffect_withR (fun _ => rfl) fun hr => ⟨.write ⟨r.toNat, hr⟩ (sext16 imm), ⟨r, rfl, rfl⟩, fun _ _ => rfl⟩

/-- The effect of a division, made of the two registers it reads. -/
theorem divide_eq_apply (r1 r2 r3 : Byte) (i j d : Fin 32) (hd : r3.toNat = d) (s : State) :
    ∃ e : Effect, e.Allowed (.div r1 r2 r3) s ∧
      ∀ s', s'.x i = s.x i → s'.x j = s.x j → divide i j d s' = e.apply s' := by
  have hj := j.isLt
  rcases divide_cases i j d s with ⟨h0, -⟩ | ⟨ha, hb, -⟩ | ⟨h0, hov, -⟩
  · refine ⟨.fault .divisionByZero j.val, fun _ word hw _ => ?_, fun s' hi hj => ?_⟩
    · simp only [FaultRecord.wf, decide_eq_true_eq]
      omega
    · simp [divide, hj, h0, Effect.apply]
  · refine ⟨.fault .divisionOverflow j.val, fun _ word hw _ => ?_, fun s' hi hj => ?_⟩
    · simp only [FaultRecord.wf, decide_eq_true_eq]
      omega
    · simp [divide, hi, hj, ha, hb, Effect.apply]
  · refine ⟨.divide d (wrap32 ((s.x i).toInt.tdiv (s.x j).toInt))
      (u32 ((s.x i).toInt - (s.x i).toInt.tdiv (s.x j).toInt * (s.x j).toInt)), ⟨r1, r2, r3, rfl, hd⟩,
      fun s' hi hj => ?_⟩
    simp only [divide, hi, hj, h0, hov, if_false, Effect.apply]

theorem hasEffect_execDiv (r1 r2 r3 : Byte) (s : State) : HasEffect (.div r1 r2 r3) s (execDiv r1 r2 r3) := by
  refine hasEffect_withRRR (fun _ => rfl) fun h1 h2 h3 => ?_
  obtain ⟨e, he, happly⟩ := divide_eq_apply r1 r2 r3 ⟨r1.toNat, h1⟩ ⟨r2.toNat, h2⟩ ⟨r3.toNat, h3⟩ rfl s
  exact ⟨e, he, fun s' hs => congrArg _
    (happly s' (hs.source r1 (by simp [sourceFields]) h1) (hs.source r2 (by simp [sourceFields]) h2))⟩

theorem hasEffect_execAloc (r : Byte) (s : State) : HasEffect (.aloc r) s (execAloc r) := by
  refine hasEffect_withR (fun _ => rfl) fun hr => ?_
  have hread (s' : State) (hs : SameView (.aloc r) s s') : s'.x ⟨r.toNat, hr⟩ = s.x ⟨r.toNat, hr⟩ :=
    hs.source r (by simp [sourceFields]) hr
  have hlow : -2 ^ 31 ≤ (s.x ⟨r.toNat, hr⟩).toInt := BitVec.le_toInt _
  have hhigh : (s.x ⟨r.toNat, hr⟩).toInt < 2 ^ 31 := BitVec.toInt_lt
  rcases s.growHeap_cases (s.x ⟨r.toNat, hr⟩).toInt with ⟨hneg, -⟩ | ⟨h0, hmax, -⟩ | ⟨h0, hmax, -⟩
  · refine ⟨.fault .negativeHeapGrowth (s.x ⟨r.toNat, hr⟩).toInt, fun _ word hw _ => ?_, fun s' hs => ?_⟩
    · simp only [FaultRecord.wf, decide_eq_true_eq]
      omega
    · simp [State.growHeap, hread s' hs, hneg, Effect.apply]
  · refine ⟨.fault .heapExhausted (s.x ⟨r.toNat, hr⟩).toInt, fun _ word hw hheap => ?_, fun s' hs => ?_⟩
    · simp only [FaultRecord.wf, decide_eq_true_eq]
      omega
    · simp [State.growHeap, hread s' hs, hs.heapLen, hs.cfg, Int.not_lt.mpr h0, hmax, Effect.apply]
  · refine ⟨.grow (s.x ⟨r.toNat, hr⟩).toInt.toNat, ⟨⟨r, rfl⟩, by omega⟩, fun s' hs => ?_⟩
    simp [State.growHeap, hread s' hs, hs.heapLen, hs.cfg, Int.not_lt.mpr h0, Int.not_lt.mpr hmax, Effect.apply]

/-- Every instruction at every state has one effect, which is allowed to it and made only of what it reads. -/
theorem exec_hasEffect (i : Instr) (s : State) : HasEffect i s (exec i) := by
  cases i with
  | hlt => exact ⟨.halt .haltedHlt, .inl ⟨rfl, rfl⟩, fun _ _ => rfl⟩
  | load r imm => exact hasEffect_execLoad r imm s
  | add r1 r2 r3 => exact hasEffect_wrappedRRR _ r1 r2 r3 rfl rfl
  | sub r1 r2 r3 => exact hasEffect_wrappedRRR _ r1 r2 r3 rfl rfl
  | mul r1 r2 r3 => exact hasEffect_wrappedRRR _ r1 r2 r3 rfl rfl
  | div r1 r2 r3 => exact hasEffect_execDiv r1 r2 r3 s
  | jmp r => exact hasEffect_jumpToReg (fun _ v => v.toInt) r rfl rfl fun _ _ _ => rfl
  | jmpf r =>
    exact hasEffect_jumpToReg (fun s' v => s'.relativeBase + v.toInt) r rfl rfl fun s' _ hs => by rw [hs.relativeBase]
  | jmpb r =>
    exact hasEffect_jumpToReg (fun s' v => s'.relativeBase - v.toInt) r rfl rfl fun s' _ hs => by rw [hs.relativeBase]
  | eq r1 r2 => exact hasEffect_compareRegs .eq r1 r2 rfl rfl
  | neq r1 r2 => exact hasEffect_compareRegs .neq r1 r2 rfl rfl
  | gt r1 r2 => exact hasEffect_compareRegs .gt r1 r2 rfl rfl
  | lt r1 r2 => exact hasEffect_compareRegs .lt r1 r2 rfl rfl
  | gte r1 r2 => exact hasEffect_compareRegs .gte r1 r2 rfl rfl
  | lte r1 r2 => exact hasEffect_compareRegs .lte r1 r2 rfl rfl
  | jeq r => exact hasEffect_jumpIf (fun s' => s'.eqf) r rfl rfl rfl fun _ h => h
  | jneq r => exact hasEffect_jumpIf (fun s' => !s'.eqf) r rfl rfl rfl fun _ h => congrArg _ h
  | aloc r => exact hasEffect_execAloc r s
  | inc r => exact hasEffect_wrappedR (fun a => a + 1) r rfl rfl
  | dec r => exact hasEffect_wrappedR (fun a => a - 1) r rfl rfl
  | igl => exact ⟨.halt .haltedIllegal, .inr ⟨rfl, rfl⟩, fun _ _ => rfl⟩

/-- Everything an executed instruction can do: one allowed effect, which is also its effect in every state that the
instruction cannot tell from `s`. -/
theorem exec_cases (i : Instr) (s t : State) (h : exec i s = .next t) :
    ∃ e : Effect, e.Allowed i s ∧ t = e.apply s ∧ ∀ s', SameView i s s' → exec i s' = .next (e.apply s') := by
  obtain ⟨e, he, happly⟩ := exec_hasEffect i s
  have ht := h.symm.trans (happly s (.refl i s))
  exact ⟨e, he, by cases ht; rfl, happly⟩

/-- Every instruction has a next state: its faults are states too (log 7). -/
theorem exec_eq_next (i : Instr) (s : State) : ∃ t, exec i s = .next t := by
  obtain ⟨e, -, happly⟩ := exec_hasEffect i s
  exact ⟨_, happly s (.refl i s)⟩

end Sys2Proof.Machine
end

section
/-! What one step can do (40_fetch_decode_execute.md R100 to R104), and that a step always answers a state. -/

namespace Sys2Proof.Machine

theorem State.fetched_length (s : State) : s.fetched.length = min 4 (s.len - s.pc.toNat) :=
  Memory.fetch4_length s.prog s.pc.toNat

theorem fetchDecode_truncated (s : State) (h : s.status ≠ .faulted) (he : s.pc.toNat < s.len)
    (hshort : s.fetched.length < 4) : fetchDecode s = .truncated s.fetched.length := by
  simp [fetchDecode, h, Nat.not_le.mpr he, decode_short s.cfg s.fetched hshort]

/-- Everything the fetch and decode phases can find. -/
theorem fetchDecode_cases (s : State) :
    (s.status = .faulted ∧ fetchDecode s = .sticky) ∨
      (s.status ≠ .faulted ∧ s.len ≤ s.pc.toNat ∧ fetchDecode s = .endOfProgram) ∨
      (s.status ≠ .faulted ∧ 1 ≤ s.fetched.length ∧ s.fetched.length ≤ 3 ∧
        fetchDecode s = .truncated s.fetched.length) ∨
      (s.status ≠ .faulted ∧ s.pc.toNat + 4 ≤ s.len ∧ ∃ i, fetchDecode s = .instr i) := by
  have hlen := s.fetched_length
  by_cases hf : s.status = .faulted
  · exact .inl ⟨hf, fetchDecode_faulted s hf⟩
  rcases Nat.lt_or_ge s.pc.toNat s.len with he | he
  · rcases Nat.lt_or_ge s.fetched.length 4 with h4 | h4
    · exact .inr (.inr (.inl ⟨hf, by omega, by omega, fetchDecode_truncated s hf he h4⟩))
    · obtain ⟨b0, b1, b2, b3, hbytes⟩ := List.length_eq_four.mp (show s.fetched.length = 4 by omega)
      exact .inr (.inr (.inr ⟨hf, by omega, _, fetchDecode_instr s hf b0 b1 b2 b3 hbytes⟩))
  · exact .inr (.inl ⟨hf, he, fetchDecode_end s hf he⟩)

theorem step_of_instr (s : State) (i : Instr) (h : fetchDecode s = .instr i) : step s = exec i s := by
  simp [step, h]

/-- Everything a step can do. -/
theorem step_cases (s t : State) (h : step s = .next t) :
    (s.status = .faulted ∧ t = s) ∨
      (s.status ≠ .faulted ∧ s.len ≤ s.pc.toNat ∧ t = s.haltEnd) ∨
      (s.status ≠ .faulted ∧ 1 ≤ s.fetched.length ∧ s.fetched.length ≤ 3 ∧
        t = s.raiseFault .truncatedInstruction s.fetched.length) ∨
      (s.status ≠ .faulted ∧ s.pc.toNat + 4 ≤ s.len ∧ ∃ i, fetchDecode s = .instr i ∧ exec i s = .next t) := by
  rcases fetchDecode_cases s with ⟨hf, hd⟩ | ⟨hf, he, hd⟩ | ⟨hf, h1, h3, hd⟩ | ⟨hf, h4, i, hd⟩ <;>
    simp only [step, hd, Host.Outcome.next.injEq] at h
  · exact .inl ⟨hf, h.symm⟩
  · exact .inr (.inl ⟨hf, he, h.symm⟩)
  · exact .inr (.inr (.inl ⟨hf, h1, h3, h.symm⟩))
  · exact .inr (.inr (.inr ⟨hf, h4, i, hd, h⟩))

theorem after_step_of_next (s t : State) (h : step s = .next t) : Command.step.after s = t := by
  simp [Command.after, h]

/-- A step always answers a next state, the one that the STEP command leaves. -/
theorem step_eq_next_after (s : State) : step s = .next (Command.step.after s) := by
  have hnext : ∃ t, step s = .next t := by
    cases hd : fetchDecode s with
    | instr i => exact step_of_instr s i hd ▸ exec_eq_next i s
    | sticky => exact ⟨s, by simp [step, hd]⟩
    | endOfProgram => exact ⟨s.haltEnd, by simp [step, hd]⟩
    | truncated n => exact ⟨s.raiseFault .truncatedInstruction n, by simp [step, hd]⟩
  obtain ⟨t, h⟩ := hnext
  rw [h, after_step_of_next s t h]

theorem State.Runs.fetchDecode_eq {s : State} {i : Instr} (h : s.Runs i) : fetchDecode s = .instr i := by
  obtain ⟨hf, b0, b1, b2, b3, ⟨h0, h1, h2, h3⟩, rfl⟩ := h
  exact fetchDecode_instr s hf b0 b1 b2 b3 (Memory.fetch4_of_read s.prog _ b0 b1 b2 b3 h0 h1 h2 h3)

theorem State.Runs.pc_add_four_le {s : State} {i : Instr} (h : s.Runs i) : s.pc.toNat + 4 ≤ s.len := by
  obtain ⟨-, b0, b1, b2, b3, ⟨-, -, -, h3⟩, -⟩ := h
  have hlt : ¬s.prog.length ≤ s.pc.toNat + 3 := fun hle => by
    simp [(Memory.read_none_iff s.prog _).mpr hle] at h3
  simp only [State.len]
  omega

end Sys2Proof.Machine
end

section
/-! 10_state.md R24, R26, R29, R30, R32, R34: the values after reset, the invariant of legal states, and the pc of a
step that takes no jump. -/

namespace Sys2Proof.Machine

/-- Settles O1: RESET writes every component, the registers all with 0 (`State.x_resetWith`). -/
theorem resetLeavesTheListedValues : Obligations.ResetLeavesTheListedValues :=
  ⟨fun s => ⟨fun k hk => State.x_resetWith s.cfg ⟨k, hk⟩, rfl, rfl, rfl, rfl, rfl, rfl, rfl, rfl⟩, rfl⟩

/-- Settles O2: every length is 0, and the reference parameters are legal. -/
theorem resetIsLegal : Obligations.ResetIsLegal := by
  unfold Obligations.ResetIsLegal
  decide

/-- Sequential advance does not wrap while the program is shorter than 2^32 (R26). -/
theorem toNat_pc_add_four (pc : Word) (h : pc.toNat + 4 < 2 ^ 32) : (pc + 4).toNat = pc.toNat + 4 := by
  rw [BitVec.toNat_add]
  exact Nat.mod_eq_of_lt h

/-- The pc an effect leaves: kept by a fault, the target of a jump, else the next instruction (R24). -/
theorem Effect.apply_pc (s : State) (e : Effect) :
    (e.apply s).status = .faulted ∨ (∃ a, e = .jump a ∧ (e.apply s).pc = BitVec.ofInt 32 a) ∨
      (e.apply s).pc = s.pc + 4 := by
  cases e with
  | fault kind info => exact .inl rfl
  | jump a => exact .inr (.inl ⟨a, rfl, rfl⟩)
  | _ => exact .inr (.inr rfl)

theorem Effect.apply_prog (s : State) (e : Effect) : (e.apply s).prog = s.prog := by
  cases e <;> rfl

/-! ### The invariant of legal states -/

theorem State.Inv.len_lt {s : State} (h : s.Inv) : s.len < 2 ^ 32 :=
  let ⟨⟨_, hmax⟩, hlen, _⟩ := h
  Nat.lt_of_le_of_lt hlen hmax

theorem State.Inv.pc_le {s : State} (h : s.Inv) : s.pc.toNat ≤ s.len :=
  let ⟨_, _, hpc, _⟩ := h
  hpc

theorem State.Inv.heapLen_le {s : State} (h : s.Inv) : s.heapLen ≤ s.cfg.heapMax :=
  let ⟨_, _, _, hheap, _⟩ := h
  hheap

/-- What a legal state says of the pc, the heap and the fault record is all that a step can break. -/
theorem State.Inv.of_sameProgram {s t : State} (h : s.Inv) (hcfg : t.cfg = s.cfg) (hprog : t.prog = s.prog)
    (hpc : t.pc.toNat ≤ s.len) (hheap : t.heapLen ≤ s.cfg.heapMax)
    (hfault : (t.status = .faulted ↔ t.fault.isSome = true) ∧ t.fault.all FaultRecord.wf = true) : t.Inv := by
  obtain ⟨hwf, hlen, -⟩ := h
  refine ⟨hcfg ▸ hwf, ?_, ?_, hcfg ▸ hheap, hfault⟩ <;> simp only [State.len, hcfg, hprog] <;> assumption

/-- An engine that is not FAULTED holds no fault record (R32). -/
theorem State.Inv.fault_eq_none {s : State} (h : s.Inv) (hok : s.status ≠ .faulted) : s.fault = none := by
  obtain ⟨-, -, -, -, hiff, -⟩ := h
  simpa using mt hiff.mpr hok

/-- Raising a fault with a well-formed record keeps a state legal. -/
theorem State.Inv.raiseFault {s : State} (h : s.Inv) (kind : FaultKind) (info : Int)
    (hwf : FaultRecord.wf { kind := kind, pc := s.pc, word := s.fetched, info := info } = true) :
    (s.raiseFault kind info).Inv :=
  h.of_sameProgram rfl rfl h.pc_le h.heapLen_le ⟨by simp, by simpa using hwf⟩

theorem State.Inv.jump {s : State} (h : s.Inv) (hok : s.status ≠ .faulted) (a : Int) (h0 : 0 ≤ a) (hlt : a < s.len) :
    ((Effect.jump a).apply s).Inv := by
  have hlen := h.len_lt
  have hpc : (BitVec.ofInt 32 a).toNat ≤ s.len := by
    rw [BitVec.toNat_ofInt, Int.emod_eq_of_lt h0 (by omega)]
    omega
  exact h.of_sameProgram rfl rfl hpc h.heapLen_le (by simp [Effect.apply, h.fault_eq_none hok])

/-- Going on at `pc + 4` after a fetch of four bytes keeps a state legal, if the heap stays within HEAP_MAX. -/
theorem State.Inv.advance {s t : State} (h : s.Inv) (hok : s.status ≠ .faulted) (h4 : s.pc.toNat + 4 ≤ s.len)
    (hcfg : t.cfg = s.cfg) (hprog : t.prog = s.prog) (hpc : t.pc = s.pc + 4) (hheap : t.heapLen ≤ s.cfg.heapMax)
    (hstatus : t.status ≠ .faulted) (hfault : t.fault = s.fault) : t.Inv := by
  refine h.of_sameProgram hcfg hprog ?_ hheap (by simp [hstatus, hfault, h.fault_eq_none hok])
  rw [hpc, toNat_pc_add_four s.pc (Nat.lt_of_le_of_lt h4 h.len_lt)]
  exact h4

/-- Every effect allowed to a fetched instruction keeps a state legal. -/
theorem State.Inv.apply {s : State} (h : s.Inv) (hok : s.status ≠ .faulted) (h4 : s.pc.toNat + 4 ≤ s.len) (i : Instr)
    (e : Effect) (he : e.Allowed i s) : (e.apply s).Inv := by
  cases e with
  | fault kind info =>
    exact h.raiseFault kind info (he s.pc s.fetched (by rw [s.fetched_length]; omega) h.heapLen_le)
  | jump a =>
    obtain ⟨-, h0, hlt⟩ := he
    exact h.jump hok a h0 hlt
  | halt st =>
    have hst : st ≠ .faulted := by rcases he with ⟨-, rfl⟩ | ⟨-, rfl⟩ <;> decide
    exact h.advance hok h4 rfl rfl rfl h.heapLen_le hst rfl
  | grow n =>
    obtain ⟨-, hheap⟩ := he
    exact h.advance hok h4 rfl rfl rfl hheap (by simp [Effect.apply]) rfl
  | _ => exact h.advance hok h4 rfl rfl rfl h.heapLen_le (by simp [Effect.apply]) rfl

/-- Settles O3, by the cases of a step and, for an executed instruction, of its effect. -/
theorem stepKeepsLegalStates : Obligations.StepKeepsLegalStates := by
  intro s t h hstep
  rcases step_cases s t hstep with ⟨-, rfl⟩ | ⟨hok, -, rfl⟩ | ⟨hok, h1, h3, rfl⟩ | ⟨hok, h4, i, -, hexec⟩
  · exact h
  · exact h.of_sameProgram rfl rfl h.pc_le h.heapLen_le (by simp [h.fault_eq_none hok])
  · exact h.raiseFault .truncatedInstruction _ (by simp [FaultRecord.wf, h1, h3])
  · obtain ⟨e, he, rfl, -⟩ := exec_cases i s t hexec
    exact h.apply hok h4 i e he

/-- Settles O32: a step with no jump taken and no fault goes on at `pc + 4`, which is at most `len < 2^32`. -/
theorem sequentialPcNeverWraps : Obligations.SequentialPcNeverWraps := by
  intro s t i h hruns hjump hstep hok
  have h4 := hruns.pc_add_four_le
  rw [step_of_instr s i hruns.fetchDecode_eq] at hstep
  obtain ⟨e, he, rfl, -⟩ := exec_cases i s t hstep
  rcases e.apply_pc s with hf | ⟨a, rfl, -⟩ | hpc
  · exact absurd hf hok
  · obtain ⟨htaken, -⟩ := he
    simp [hjump] at htaken
  · rw [hpc, toNat_pc_add_four s.pc (Nat.lt_of_le_of_lt h4 h.len_lt), e.apply_prog]
    exact ⟨rfl, h4⟩

end Sys2Proof.Machine
end

section
/-! 10_state.md R22, R27, R28: what an instruction writes and what it reads, for the registers, the equal flag and the
remainder register. An effect writes over such a component or carries it through. -/

namespace Sys2Proof.Machine

/-! ### The remainder register (R28) -/

theorem Effect.apply_rem (s : State) (e : Effect) : (e.apply s).rem = s.rem ∨ ∃ d q r, e = .divide d q r := by
  cases e with
  | divide d q r => exact .inr ⟨d, q, r, rfl⟩
  | _ => exact .inl rfl

theorem Effect.apply_setRem (s : State) (v : Word) (e : Effect) :
    ∃ w, e.apply (s.setRem v) = (e.apply s).setRem w := by
  cases e with
  | divide d q r => exact ⟨r, rfl⟩
  | _ => exact ⟨v, rfl⟩

/-- No instruction reads `rem`. -/
theorem exec_setRem (i : Instr) (s t : State) (v : Word) (h : exec i s = .next t) :
    ∃ w, exec i (s.setRem v) = .next (t.setRem w) := by
  obtain ⟨e, -, rfl, hsame⟩ := exec_cases i s t h
  obtain ⟨w, hw⟩ := e.apply_setRem s v
  exact ⟨w, hw ▸ hsame _ ⟨rfl, rfl, rfl, rfl, fun _ _ _ => rfl, fun _ => rfl⟩⟩

theorem fetchDecode_setRem (s : State) (v : Word) : fetchDecode (s.setRem v) = fetchDecode s := rfl

/-- A step keeps two states equal but for `rem`. -/
theorem step_setRem (s t : State) (v : Word) (h : step s = .next t) :
    ∃ w, step (s.setRem v) = .next (t.setRem w) := by
  rw [step] at h
  rw [step, fetchDecode_setRem]
  cases hd : fetchDecode s with
  | instr i =>
    rw [hd] at h
    exact exec_setRem i s t v h
  | _ =>
    rw [hd] at h
    cases h
    exact ⟨v, rfl⟩

theorem after_step_setRem (s : State) (v : Word) :
    ∃ w, Command.step.after (s.setRem v) = (Command.step.after s).setRem w := by
  obtain ⟨w, hw⟩ := step_setRem s _ v (step_eq_next_after s)
  exact ⟨w, after_step_of_next _ _ hw⟩

theorem stepN_setRem (n : Nat) (s : State) (v : Word) : ∃ w, stepN n (s.setRem v) = (stepN n s).setRem w := by
  induction n generalizing s v with
  | zero => exact ⟨v, rfl⟩
  | succ n ih =>
    obtain ⟨w, hw⟩ := after_step_setRem s v
    obtain ⟨w', hw'⟩ := ih (Command.step.after s) w
    exact ⟨w', by rw [stepN, hw, hw', stepN]⟩

/-- Settles O23: DIV's effect alone writes `rem`, and by induction on the length of the run no step reads it. -/
theorem remainderInfluencesNoRun : Obligations.RemainderInfluencesNoRun := by
  refine ⟨fun i s t h hne => ?_, stepN_setRem, fun s => ⟨rfl, rfl⟩⟩
  obtain ⟨e, he, rfl, -⟩ := exec_cases i s t h
  rcases e.apply_rem s with hrem | ⟨d, q, r, rfl⟩
  · exact absurd hrem hne
  · obtain ⟨r1, r2, r3, hi, -⟩ := he
    exact ⟨r1, r2, r3, hi⟩

/-! ### The equal flag (R27) -/

theorem Effect.apply_eqf (s : State) (e : Effect) : (e.apply s).eqf = s.eqf ∨ ∃ b, e = .flag b := by
  cases e with
  | flag b => exact .inr ⟨b, rfl⟩
  | _ => exact .inl rfl

theorem Effect.apply_setEqf (s : State) (b : Bool) (e : Effect) :
    ∃ b', e.apply (s.setEqf b) = (e.apply s).setEqf b' := by
  cases e with
  | flag c => exact ⟨c, rfl⟩
  | _ => exact ⟨b, rfl⟩

/-- Only a comparison writes the equal flag. -/
theorem exec_eqf (i : Instr) (s t : State) (hi : isComparison i = false) (h : exec i s = .next t) :
    t.eqf = s.eqf := by
  obtain ⟨e, he, rfl, -⟩ := exec_cases i s t h
  rcases e.apply_eqf s with heqf | ⟨b, rfl⟩
  · exact heqf
  · exact absurd (show isComparison i = true from he) (by simp [hi])

/-- Only the conditional jumps read the equal flag. -/
theorem exec_setEqf (i : Instr) (s t : State) (b : Bool) (hi : readsFlag i = false) (h : exec i s = .next t) :
    ∃ b', exec i (s.setEqf b) = .next (t.setEqf b') := by
  obtain ⟨e, -, rfl, hsame⟩ := exec_cases i s t h
  obtain ⟨b', hb'⟩ := e.apply_setEqf s b
  exact ⟨b', hb' ▸ hsame _ ⟨rfl, rfl, rfl, rfl, fun _ _ _ => rfl, fun hr => by simp [hi] at hr⟩⟩

/-- A comparison of two registers leaves the truth of its relation in the flag (42_compare.md R150). -/
theorem compareRegs_eqf (c : Relation) (r1 r2 : Byte) (s t : State) (h1 : r1.toNat < 32) (h2 : r2.toNat < 32)
    (h : compareRegs c r1 r2 s = .next t) : t.eqf = c.holds s.regs[r1.toNat] s.regs[r2.toNat] := by
  rw [compareRegs, withRR, withReg_of_lt _ _ _ h1, withReg_of_lt _ _ _ h2] at h
  cases h
  rfl

/-- Settles O22: of the effects only a comparison's writes the flag, and only JEQ and JNEQ see it. -/
theorem equalFlagWrittenByComparisonsOnly : Obligations.EqualFlagWrittenByComparisonsOnly := by
  refine ⟨exec_eqf, fun s t r1 r2 h1 h2 => ?_, exec_setEqf, fun _ => rfl⟩
  refine ⟨fun h => ?_, fun h => ?_, fun h => ?_, fun h => ?_, fun h => ?_, fun h => ?_⟩ <;>
    simp [compareRegs_eqf _ r1 r2 s t h1 h2 h, Relation.holds]

/-! ### The registers (R22) -/

/-- The register that an effect writes. -/
def Effect.dest : Effect → Option (Fin 32)
  | .write d _ => some d
  | .divide d _ _ => some d
  | _ => none

theorem Effect.Allowed.destField_eq {i : Instr} {s : State} {e : Effect} (he : e.Allowed i s) (d : Fin 32)
    (hd : e.dest = some d) : ∃ b, destField i = some b ∧ b.toNat = d := by
  cases e with
  | write d' v =>
    cases hd
    exact he
  | divide d' q r =>
    cases hd
    obtain ⟨r1, r2, r3, rfl, h3⟩ := he
    exact ⟨r3, rfl, h3⟩
  | _ => cases hd

theorem Effect.apply_x (s : State) (e : Effect) (k : Fin 32) (h : e.dest ≠ some k) : (e.apply s).x k = s.x k := by
  cases e with
  | write d v => exact s.x_setX_ne d k v fun hk => h (congrArg some hk)
  | divide d q r => exact s.x_setX_ne d k q fun hk => h (congrArg some hk)
  | _ => rfl

theorem State.setX_setX_self (s : State) (k : Fin 32) (v w : Word) : (s.setX k v).setX k w = s.setX k w := by
  simp [State.setX]

theorem State.setX_comm (s : State) (k d : Fin 32) (v w : Word) (h : d ≠ k) :
    (s.setX k v).setX d w = (s.setX d w).setX k v := by
  simp only [State.setX, Vector.set_comm v w (fun hk => h (Fin.ext hk.symm))]

/-- Writing to `d` after `k`: the value in `k` is carried through, or `d` is `k` and holds what was written last. -/
theorem State.setX_setX (s : State) (k d : Fin 32) (v a : Word) :
    ∃ w, (w = v ∨ w = (s.setX d a).x k) ∧ (s.setX k v).setX d a = (s.setX d a).setX k w := by
  by_cases h : d = k
  · subst h
    exact ⟨a, .inr (by simp), by simp [State.setX_setX_self]⟩
  · exact ⟨v, .inl rfl, s.setX_comm k d v a h⟩

theorem Effect.apply_setX (s : State) (k : Fin 32) (v : Word) (e : Effect) :
    ∃ w, (w = v ∨ w = (e.apply s).x k) ∧ e.apply (s.setX k v) = (e.apply s).setX k w := by
  cases e with
  | write d a =>
    obtain ⟨w, hw, hset⟩ := s.setX_setX k d v a
    exact ⟨w, hw, congrArg State.continueNext hset⟩
  | divide d q r =>
    obtain ⟨w, hw, hset⟩ := s.setX_setX k d v q
    exact ⟨w, hw, congrArg (fun u => (u.setRem r).continueNext) hset⟩
  | _ => exact ⟨v, .inl rfl, rfl⟩

/-- A register that is no source of `i` is not in its view. -/
theorem sameView_setX (i : Instr) (s : State) (k : Fin 32) (v : Word) (h : ∀ b ∈ sourceFields i, b.toNat ≠ k) :
    SameView i s (s.setX k v) :=
  ⟨rfl, rfl, rfl, rfl, fun b hb _ => s.x_setX_ne k _ v fun hk => h b hb (congrArg Fin.val hk).symm, fun _ => rfl⟩

/-- Settles O21: an effect writes only the destination, and a register outside the instruction's view is carried
through or written over. -/
theorem registersReadAndWrittenByInstruction : Obligations.RegistersReadAndWrittenByInstruction := by
  intro i s t k hk h
  obtain ⟨e, he, rfl, hsame⟩ := exec_cases i s t h
  refine ⟨fun hdest => e.apply_x s ⟨k, hk⟩ fun hd => ?_, fun hsrc v => ?_⟩
  · obtain ⟨b, hb, hbk⟩ := he.destField_eq ⟨k, hk⟩ hd
    exact hdest b hb hbk
  · obtain ⟨w, hw, happly⟩ := e.apply_setX s ⟨k, hk⟩ v
    exact ⟨w, hw, (hsame _ (sameView_setX i s ⟨k, hk⟩ v hsrc)).trans (congrArg _ happly)⟩

end Sys2Proof.Machine
end

section
/-! 20_memory.md R50, R53: host commands and steps in any order keep a state legal, and only the host's commands
write the program. -/

namespace Sys2Proof.Machine

/-! ### What the host's commands can do (R111, R112, R220, R230) -/

/-- Everything LOAD-PROGRAM can do. -/
theorem hostLoadProgram_cases (bs : List Byte) (s : State) :
    (bs.length ≤ s.cfg.progMax ∧ hostLoadProgram bs s = .done { s with prog := bs, pc := 0 }) ∨
      (s.cfg.progMax < bs.length ∧ hostLoadProgram bs s = .error .programTooLong) := by
  unfold hostLoadProgram
  split
  · exact .inl ⟨‹_›, rfl⟩
  · exact .inr ⟨Nat.lt_of_not_le ‹_›, rfl⟩

/-- Everything APPEND can do. -/
theorem hostAppend_cases (bs : List Byte) (s : State) :
    (s.len + bs.length ≤ s.cfg.progMax ∧ hostAppend bs s = .done { s with prog := s.prog ++ bs }) ∨
      (s.cfg.progMax < s.len + bs.length ∧ hostAppend bs s = .error .programTooLong) := by
  unfold hostAppend
  split
  · exact .inl ⟨‹_›, rfl⟩
  · exact .inr ⟨Nat.lt_of_not_le ‹_›, rfl⟩

/-- An accepted LOAD-PROGRAM writes the program and the pc (R111). -/
theorem eq_of_hostLoadProgram_done {bs : List Byte} {s t : State} (h : hostLoadProgram bs s = .done t) :
    t = { s with prog := bs, pc := 0 } := by
  rcases hostLoadProgram_cases bs s with ⟨-, hs⟩ | ⟨-, hs⟩ <;> cases hs.symm.trans h
  rfl

/-- An accepted APPEND writes the program only (R112). -/
theorem eq_of_hostAppend_done {bs : List Byte} {s t : State} (h : hostAppend bs s = .done t) :
    t = { s with prog := s.prog ++ bs } := by
  rcases hostAppend_cases bs s with ⟨-, hs⟩ | ⟨-, hs⟩ <;> cases hs.symm.trans h
  rfl

/-! ### Legal states in any order of commands (R50) -/

/-- RESET leaves a legal state in an engine with legal parameters. -/
theorem State.Inv.resetWith {c : Config} (h : c.WellFormed) : (State.resetWith c).Inv :=
  ⟨h, Nat.zero_le _, Nat.le_refl _, Nat.zero_le _, by simp [State.resetWith], rfl⟩

theorem State.Inv.after_loadProgram {s : State} (h : s.Inv) (bs : List Byte) :
    ((Command.loadProgram bs).after s).Inv := by
  have ⟨hwf, _, _, hheap, hfault⟩ := h
  rcases hostLoadProgram_cases bs s with ⟨hlen, hs⟩ | ⟨-, hs⟩ <;> simp only [Command.after, hs]
  · exact ⟨hwf, hlen, Nat.zero_le _, hheap, hfault⟩
  · exact h

theorem State.Inv.after_append {s : State} (h : s.Inv) (bs : List Byte) : ((Command.append bs).after s).Inv := by
  have ⟨hwf, _, hpc, hheap, hfault⟩ := h
  rcases hostAppend_cases bs s with ⟨hlen, hs⟩ | ⟨-, hs⟩ <;> simp only [Command.after, hs]
  · have happend : State.len { s with prog := s.prog ++ bs } = s.len + bs.length := List.length_append
    exact ⟨hwf, happend ▸ hlen, happend ▸ Nat.le_add_right_of_le hpc, hheap, hfault⟩
  · exact h

/-- Every command keeps a state legal, accepted or refused. -/
theorem State.Inv.after {s : State} (h : s.Inv) (cmd : Command) : (cmd.after s).Inv := by
  cases cmd with
  | reset =>
    obtain ⟨hwf, -⟩ := h
    exact .resetWith hwf
  | loadProgram bs => exact h.after_loadProgram bs
  | append bs => exact h.after_append bs
  | step => exact stepKeepsLegalStates s _ h (step_eq_next_after s)

theorem Reachable.inv {s : State} (h : Reachable s) : s.Inv := by
  induction h with
  | created c hc => exact .resetWith hc
  | command cmd s _ ih => exact ih.after cmd

/-- Settles O5: a created engine is legal and every command keeps it so; the bounds are parts of the invariant. -/
theorem everyReachableStateIsLegal : Obligations.EveryReachableStateIsLegal :=
  fun _ h => ⟨h.inv, h.inv.pc_le, h.inv.len_lt, h.inv.heapLen_le⟩

/-! ### No step writes the program (R53) -/

theorem Effect.apply_cfg (s : State) (e : Effect) : (e.apply s).cfg = s.cfg := by
  cases e <;> rfl

/-- A step keeps the program and the parameters. -/
theorem step_frame {s t : State} (h : step s = .next t) : t.prog = s.prog ∧ t.cfg = s.cfg := by
  rcases step_cases s t h with ⟨-, rfl⟩ | ⟨-, -, rfl⟩ | ⟨-, -, -, rfl⟩ | ⟨-, -, i, -, hexec⟩
  · exact ⟨rfl, rfl⟩
  · exact ⟨rfl, rfl⟩
  · exact ⟨rfl, rfl⟩
  · obtain ⟨e, -, rfl, -⟩ := exec_cases i s t hexec
    exact ⟨e.apply_prog s, e.apply_cfg s⟩

theorem stepN_frame (n : Nat) (s : State) : (stepN n s).prog = s.prog ∧ (stepN n s).cfg = s.cfg := by
  induction n generalizing s with
  | zero => exact ⟨rfl, rfl⟩
  | succ n ih =>
    obtain ⟨hprog, hcfg⟩ := step_frame (step_eq_next_after s)
    obtain ⟨ihprog, ihcfg⟩ := ih (Command.step.after s)
    exact ⟨ihprog.trans hprog, ihcfg.trans hcfg⟩

/-! ### The fetch after an append -/

/-- A byte that is there reads the same after more are appended. -/
theorem Memory.read_append_of_read {m : Memory} {a : Nat} {b : Byte} (bs : List Byte) (h : m.read a = some b) :
    Memory.read (m ++ bs) a = some b := by
  obtain ⟨hlt, -⟩ := List.getElem?_eq_some_iff.mp h
  rw [m.read_append_left bs a hlt, h]

/-- Appending keeps the instruction that the next step executes. -/
theorem State.Runs.append {s : State} {i : Instr} (h : s.Runs i) (bs : List Byte) :
    State.Runs { s with prog := s.prog ++ bs } i := by
  obtain ⟨hok, b0, b1, b2, b3, ⟨h0, h1, h2, h3⟩, hdec⟩ := h
  exact ⟨hok, b0, b1, b2, b3, ⟨Memory.read_append_of_read bs h0, Memory.read_append_of_read bs h1,
    Memory.read_append_of_read bs h2, Memory.read_append_of_read bs h3⟩, hdec⟩

/-- Settles O25: by induction on the length of the run no step writes the program, and the new program of an accepted
LOAD-PROGRAM or APPEND is what the next fetch reads. -/
theorem noStepWritesTheProgram : Obligations.NoStepWritesTheProgram := by
  refine ⟨fun n s => ?_, fun s t bs h => ?_, fun s t bs h => ?_⟩
  · obtain ⟨hprog, hcfg⟩ := stepN_frame n s
    exact ⟨fun a => by rw [hprog], by rw [hprog], hcfg⟩
  · cases eq_of_hostLoadProgram_done h
    exact ⟨rfl, fun _ => rfl⟩
  · cases eq_of_hostAppend_done h
    exact ⟨rfl, s.prog.read_append_left bs, s.prog.read_append_right bs, rfl, fun _ hruns => hruns.append bs⟩

end Sys2Proof.Machine
end

section
/-! 30_encoding.md R60 to R67: the decoder and the encoder are inverse to each other, and padding carries no meaning. -/

namespace Sys2Proof

/-! ### The opcode byte (R63, R66) -/

theorem OpcodeOf.bytes_eq_map (o : OpcodeOf) : o.bytes = (Opcode.executable ++ [Opcode.igl]).map o.byte := rfl

/-- Distinct opcode bytes: a legal assignment gives no byte to two operation codes. -/
theorem Config.WellFormed.byte_inj {c : Config} (h : c.WellFormed) {op op' : Opcode}
    (heq : c.opcodes.byte op = c.opcodes.byte op') : op = op' := by
  obtain ⟨hnodup, -⟩ := h
  have hmem (op : Opcode) : op ∈ Opcode.executable ++ [Opcode.igl] := by
    simpa [mem_executable] using ne_or_eq op .igl
  rw [OpcodeOf.bytes_eq_map] at hnodup
  exact List.inj_on_of_nodup_map hnodup (hmem op) (hmem op') heq

/-- Everything the decoder can answer for a byte: an executable operation code of that byte, or IGL. -/
theorem decodeOpcode_cases (c : Config) (b : Byte) :
    (decodeOpcode c b ≠ .igl ∧ c.opcodes.byte (decodeOpcode c b) = b) ∨
      (decodeOpcode c b = .igl ∧ ∀ op, op ≠ .igl → c.opcodes.byte op ≠ b) := by
  unfold decodeOpcode
  cases hfind : Opcode.executable.find? fun op => c.opcodes.byte op == b with
  | none => exact .inr ⟨rfl, by simpa [mem_executable] using hfind⟩
  | some op =>
    exact .inl ⟨(mem_executable op).mp (List.mem_of_find?_eq_some hfind), by simpa using List.find?_some hfind⟩

theorem decodeOpcode_eq_igl_iff (c : Config) (b : Byte) :
    decodeOpcode c b = .igl ↔ ∀ op, op ≠ .igl → c.opcodes.byte op ≠ b := by
  rcases decodeOpcode_cases c b with ⟨hop, hb⟩ | ⟨hop, hb⟩
  · exact iff_of_false hop fun h => h _ hop hb
  · exact iff_of_true hop hb

theorem Config.WellFormed.decodeOpcode_eq_iff {c : Config} (h : c.WellFormed) (b : Byte) {op : Opcode}
    (hop : op ≠ .igl) : decodeOpcode c b = op ↔ c.opcodes.byte op = b := by
  rcases decodeOpcode_cases c b with ⟨-, hb⟩ | ⟨hdec, hb⟩
  · exact ⟨fun heq => heq ▸ hb, fun heq => h.byte_inj (hb.trans heq.symm)⟩
  · exact iff_of_false (fun heq => hop (heq.symm.trans hdec)) (hb op hop)

/-- The byte of an operation code decodes to it; IGL's byte too, since no executable code has it. -/
theorem Config.WellFormed.decodeOpcode_byte {c : Config} (h : c.WellFormed) (op : Opcode) :
    decodeOpcode c (c.opcodes.byte op) = op := by
  by_cases hop : op = .igl
  · subst hop
    exact (decodeOpcode_eq_igl_iff c _).mpr fun _ hne heq => hne (h.byte_inj heq)
  · exact (h.decodeOpcode_eq_iff _ hop).mpr rfl

/-! ### Words and instructions -/

/-- Bytes 1 to 3 of a word with the padding of its format set to 0 (R61). -/
def Format.zeroPadding (b1 b2 b3 : Byte) : Format → List Byte
  | .n => [0, 0, 0]
  | .r => [b1, 0, 0]
  | .rr => [b1, b2, 0]
  | .ri | .rrr => [b1, b2, b3]

/-- The encoding of a decoded word: the byte of the decoded operation code, and the word without its padding. -/
theorem encode_decodeWord (c : Config) (b0 b1 b2 b3 : Byte) :
    encode c (decodeWord c b0 b1 b2 b3) =
      c.opcodes.byte (decodeOpcode c b0) :: (decodeOpcode c b0).format.zeroPadding b1 b2 b3 := by
  unfold decodeWord
  cases decodeOpcode c b0 with
  | load => simp [encode, Opcode.format, Format.zeroPadding]
  | _ => rfl

/-- Words that differ in padding only decode to the same instruction (R67). -/
theorem decodeWord_eq_of_zeroPadding_eq (c : Config) (b0 b1 b2 b3 p1 p2 p3 : Byte)
    (h : (decodeOpcode c b0).format.zeroPadding b1 b2 b3 = (decodeOpcode c b0).format.zeroPadding p1 p2 p3) :
    decodeWord c b0 b1 b2 b3 = decodeWord c b0 p1 p2 p3 := by
  unfold decodeWord
  cases hop : decodeOpcode c b0 <;> simp_all [Opcode.format, Format.zeroPadding]

/-- Decoding undoes encoding, whatever bytes follow (R60 to R66). -/
theorem Config.WellFormed.decode_encode_append {c : Config} (h : c.WellFormed) (i : Instr) (rest : List Byte) :
    decode c (encode c i ++ rest) = .instr i rest := by
  cases i <;> simp [encode, decodeWord, h.decodeOpcode_byte]

/-- Settles O6, by the instruction: its opcode byte decodes to its operation code (`decodeOpcode_byte`), and the
fields are read back. -/
theorem decodeOfEncodeGivesBack : Obligations.DecodeOfEncodeGivesBack :=
  fun _ i rest h => h.decode_encode_append i rest

/-- Settles O7: the encoding of a decoded word is the byte of its operation code, which is byte 0, and the word
without its padding, which is 0. -/
theorem canonicalWordsEncodeBack : Obligations.CanonicalWordsEncodeBack := by
  intro c b0 b1 b2 b3 _ hpad higl
  have hbyte : c.opcodes.byte (decodeOpcode c b0) = b0 := by
    rcases decodeOpcode_cases c b0 with ⟨-, hb⟩ | ⟨hdec, -⟩
    · exact hb
    · rw [hdec]
      exact (higl hdec).symm
  have hfields : (decodeOpcode c b0).format.zeroPadding b1 b2 b3 = [b1, b2, b3] := by
    cases hf : (decodeOpcode c b0).format <;> simp_all [Format.zeroPadding]
  rw [encode_decodeWord, hbyte, hfields]

/-- Settles O8, by the cases of `decodeOpcode` and the distinctness of the opcode bytes. -/
theorem decoderIsTotalOnOpcodeBytes : Obligations.DecoderIsTotalOnOpcodeBytes :=
  fun c b0 h => ⟨fun _ hop => h.decodeOpcode_eq_iff b0 hop, decodeOpcode_eq_igl_iff c b0,
    fun b1 b2 b3 rest => ⟨_, decode_cons4 c b0 b1 b2 b3 rest, opcode_decodeWord c b0 b1 b2 b3⟩⟩

/-- Settles O10, by running the decoder. -/
theorem referenceWordsDecode : Obligations.ReferenceWordsDecode := by
  unfold Obligations.ReferenceWordsDecode
  decide

end Sys2Proof

namespace Sys2Proof.Machine

/-! ### Execution reads the length of the program only (R44, R67) -/

/-- With another program an effect leaves the same state but for the program and the word of a fault record. -/
theorem Effect.apply_withProg (s : State) (m : Memory) (e : Effect) :
    ∃ f : Option FaultRecord, e.apply { s with prog := m } = { e.apply s with prog := m, fault := f } ∧
      f.map (fun r => (r.kind, r.pc, r.info)) = (e.apply s).fault.map (fun r => (r.kind, r.pc, r.info)) := by
  cases e with
  | fault kind info => exact ⟨some ⟨kind, s.pc, m.fetch4 s.pc.toNat, info⟩, rfl, rfl⟩
  | _ => exact ⟨s.fault, rfl, rfl⟩

/-- The length of the program is all that an instruction sees of it. -/
theorem sameView_withProg (i : Instr) (s : State) (m : Memory) (h : m.length = s.prog.length) :
    SameView i s { s with prog := m } :=
  ⟨rfl, h, rfl, rfl, fun _ _ _ => rfl, fun _ => rfl⟩

/-- Settles O9: a decoded word is determined by the word without its padding, and an instruction's effect by what the
instruction sees, which of the program is its length. -/
theorem paddingIsIgnored : Obligations.PaddingIsIgnored := by
  refine ⟨fun c b0 b1 b2 b3 p1 p2 p3 => ?_, fun i s t m hm h => ?_⟩
  · cases hf : (decodeOpcode c b0).format with
    | ri | rrr => trivial
    | n | r | rr => exact decodeWord_eq_of_zeroPadding_eq c b0 _ _ _ _ _ _ (by rw [hf]; rfl)
  · obtain ⟨e, -, rfl, hsame⟩ := exec_cases i s t h
    obtain ⟨f, happly, hf⟩ := e.apply_withProg s m
    exact ⟨f, (hsame _ (sameView_withProg i s m hm)).trans (congrArg _ happly), hf⟩

end Sys2Proof.Machine
end

section
/-! 30_encoding.md R70 to R80: the assembler. A canonical line becomes the encoding of its instruction, a label its
offset, and a source text the lines that are not blank. -/

namespace Sys2Proof.Machine

/-! ### Lines (R71 to R73) -/

theorem opcodeOfMnemonic_mnemonic (op : Opcode) : opcodeOfMnemonic (Opcode.mnemonic op) = op := by
  cases op <;> decide

/-- The low half of a sign-extended immediate is the immediate (R65, R72). -/
theorem setWidth_signExtend_half (imm : Half) : (imm.signExtend 32).setWidth 16 = imm := by
  ext k hk
  rw [BitVec.getElem_setWidth, BitVec.getLsbD_signExtend]
  simp [hk, Nat.lt_trans hk]

theorem assembleLine_of_emitOperands {c : Config} {symbols : List (String × Nat)} {l : Line} {bs : List Byte}
    (h : emitOperands symbols l.operands = .bytes bs) (hlen : bs.length ≤ 3) :
    assembleLine c symbols l =
      .bytes (c.opcodes.byte (opcodeOfMnemonic l.mnemonic) :: (bs ++ List.replicate (3 - bs.length) 0)) := by
  simp [assembleLine, h, hlen]

/-- An encoding is the opcode byte, the bytes of the canonical operands and zero padding. -/
theorem encode_eq_canonicalOperands (c : Config) (symbols : List (String × Nat)) (i : Instr) :
    ∃ bs, emitOperands symbols (canonicalOperands i) = .bytes bs ∧ bs.length ≤ 3 ∧
      encode c i = c.opcodes.byte i.opcode :: (bs ++ List.replicate (3 - bs.length) 0) := by
  cases i with
  | load r imm =>
    refine ⟨[r, hiByte imm, loByte imm], ?_, by simp, rfl⟩
    simp [canonicalOperands, emitOperands, Operand.emit, setWidth_signExtend_half]
  | _ => exact ⟨_, rfl, by simp, rfl⟩

/-- Settles O34: the canonical mnemonic gives the operation code, and the canonical operands the operand bytes. -/
theorem assembledLineIsTheEncoding : Obligations.AssembledLineIsTheEncoding := by
  intro c symbols i
  obtain ⟨bs, hbs, hlen, hencode⟩ := encode_eq_canonicalOperands c symbols i
  rw [assembleLine_of_emitOperands (l := canonicalLine i) hbs hlen, hencode, canonicalLine, opcodeOfMnemonic_mnemonic]

/-! ### Labels (R75 to R77) -/

theorem mem_symbolsFrom_cons (base : Nat) (l : Line) (ls : List Line) (name : String) (offset : Nat) :
    (name, offset) ∈ symbolsFrom base (l :: ls) ↔
      (l.label = some name ∧ offset = base) ∨ (name, offset) ∈ symbolsFrom (base + 4) ls := by
  cases h : l.label <;> simp [symbolsFrom, h, eq_comm]

/-- A phase 1 that begins at offset `base` records the label of the line of index `k` at `base + 4 k`. -/
theorem mem_symbolsFrom (base : Nat) (ls : List Line) (name : String) (offset : Nat) :
    (name, offset) ∈ symbolsFrom base ls ↔
      ∃ (k : Nat) (hk : k < ls.length), ls[k].label = some name ∧ offset = base + 4 * k := by
  induction ls generalizing base with
  | nil => simp [symbolsFrom]
  | cons l ls ih =>
    have hoffset (k : Nat) : base + 4 + 4 * k = base + 4 * (k + 1) := by omega
    simp only [mem_symbolsFrom_cons, ih, hoffset]
    exact (Nat.exists_lt_succ_left' (p := fun k hk => (l :: ls)[k].label = some name ∧ offset = base + 4 * k)).symm

/-- Settles O35: phase 1 begins at offset 0. -/
theorem labelOffsetIsFourTimesTheIndex : Obligations.LabelOffsetIsFourTimesTheIndex := by
  intro ls name offset
  simpa using mem_symbolsFrom 0 ls name offset

/-- A LOAD of a label is the encoding of a LOAD with the low 16 bits of the label's offset (R72). -/
theorem assembleLine_load_label (c : Config) {symbols : List (String × Nat)} {name : String} {offset : Nat} (r : Byte)
    (h : symbols.lookup name = some offset) :
    assembleLine c symbols { label := none, mnemonic := "load", operands := [.reg r, .label name] } =
      .bytes (encode c (.load r (BitVec.ofNat 16 offset))) := by
  have hop : opcodeOfMnemonic "load" = .load := opcodeOfMnemonic_mnemonic .load
  simp [assembleLine, emitOperands, Operand.emit, h, hop, encode]

/-- An offset below 0x8000 survives sign extension (R77). -/
theorem sext16_ofNat_toInt {offset : Nat} (h : offset < 0x8000) : (sext16 (BitVec.ofNat 16 offset)).toInt = offset := by
  rw [sext16_toInt, BitVec.toInt_ofNat', Int.bmod_eq_of_le] <;> omega

/-- A LOAD of a register puts the sign-extended immediate there (41_arithmetic.md R130). -/
theorem exec_load_of_lt {r : Byte} (hr : r.toNat < 32) (imm : Half) (s : State) :
    exec (.load r imm) s = .next (s.setX ⟨r.toNat, hr⟩ (sext16 imm)).continueNext := by
  simp only [exec, execLoad, withR, withReg_of_lt _ _ _ hr]

/-- A JMP to a register that holds an offset inside the program goes there (43_control_flow.md R162). -/
theorem exec_jmp_inside {s : State} {r : Byte} {offset : Nat} (hr : r.toNat < 32)
    (hx : s.regs[r.toNat].toInt = offset) (hlen : offset < s.prog.length) :
    exec (.jmp r) s = .next ((s.setPc (BitVec.ofInt 32 offset)).setStatus .ready) := by
  have hread : (s.x ⟨r.toNat, hr⟩).toInt = offset := hx
  have hjump := s.jumpTo_inside offset (Int.natCast_nonneg _) (Int.ofNat_lt.mpr hlen)
  simp only [exec, execJmp, withR, withReg_of_lt _ _ _ hr, hread, hjump]

/-- Settles O36: the line assembles to an encoding, which decodes to its LOAD; sign extension keeps the offset, so
that the register holds it, and a jump there stays inside the program. -/
theorem labelReachesPcThroughLoad : Obligations.LabelReachesPcThroughLoad := by
  intro c symbols name offset r hr hwf hlookup hoff
  refine ⟨_, BitVec.ofNat 16 offset, assembleLine_load_label c r hlookup,
    by simpa using hwf.decode_encode_append (.load r _) [], fun s => ?_⟩
  have hvalue := sext16_ofNat_toInt hoff
  have htarget : (BitVec.ofInt 32 offset).toNat = offset := by
    rw [BitVec.ofInt_natCast, BitVec.toNat_ofNat]
    omega
  exact ⟨_, exec_load_of_lt hr _ s, by simp [hvalue],
    fun hlen => ⟨_, exec_jmp_inside hr (by simp [hvalue]) hlen, htarget⟩⟩

/-! ### Source text (R70, R80) -/

/-- The token lists of the lines that are not blank: what the parser sees of a source text. -/
def lineTokens (source : List Char) : List (List (List Char)) :=
  ((splitOnChar (· == '\n') source).map tokensOf).filter fun ts => !ts.isEmpty

theorem parseProgram_eq_mapM (source : List Char) : parseProgram source = (lineTokens source).mapM parseTokens := rfl

@[simp] theorem lineTokens_nil : lineTokens [] = [] := by decide

theorem lineTokens_append_newline (xs ys : List Char) :
    lineTokens (xs ++ '\n' :: ys) = lineTokens xs ++ lineTokens ys := by
  simp [lineTokens, splitOnChar_append]

theorem lineTokens_append_of_endsLine {before : List Char} (h : before = [] ∨ before.getLast? = some '\n')
    (xs : List Char) : lineTokens (before ++ xs) = lineTokens before ++ lineTokens xs := by
  rcases h with rfl | h
  · simp
  · obtain ⟨ys, rfl⟩ := List.getLast?_eq_some_iff.mp h
    simp [lineTokens_append_newline]

theorem lineTokens_append_of_startsLine {after : List Char} (h : after = [] ∨ after.head? = some '\n')
    (xs : List Char) : lineTokens (xs ++ after) = lineTokens xs ++ lineTokens (after.drop 1) := by
  rcases h with rfl | h
  · simp
  · obtain ⟨ys, rfl⟩ := List.head?_eq_some_iff.mp h
    exact lineTokens_append_newline xs ys

/-- Lines stand alone: what a line adds to the token lists does not depend on the text around it. -/
theorem lineTokens_append_line_append {before after : List Char} (hb : before = [] ∨ before.getLast? = some '\n')
    (ha : after = [] ∨ after.head? = some '\n') (line : List Char) :
    lineTokens (before ++ line ++ after) = lineTokens before ++ lineTokens line ++ lineTokens (after.drop 1) := by
  rw [lineTokens_append_of_startsLine ha, lineTokens_append_of_endsLine hb]

theorem splitOnChar_of_forall_not (p : Char → Bool) (cs : List Char) (h : ∀ ch ∈ cs, p ch = false) :
    splitOnChar p cs = [cs] := by
  induction cs with
  | nil => rfl
  | cons x xs ih =>
    obtain ⟨hx, hxs⟩ := List.forall_mem_cons.mp h
    simp [splitOnChar, hx, ih hxs]

theorem lineTokens_line {line : List Char} (h : '\n' ∉ line) :
    lineTokens line = [tokensOf line].filter fun ts => !ts.isEmpty := by
  have hsplit : splitOnChar (· == '\n') line = [line] :=
    splitOnChar_of_forall_not _ line fun ch hch => by simpa using ne_of_mem_of_not_mem hch h
  rw [lineTokens, hsplit, List.map_singleton]

theorem lineTokens_blank {w : List Char} (hw : '\n' ∉ w) (hblank : ∀ ch ∈ w, ch.isWhitespace) : lineTokens w = [] := by
  simp [lineTokens_line hw, tokensOf_blank w hblank]

/-- Whitespace around a line changes no token of it. -/
theorem lineTokens_surround {w line v : List Char} (hw : '\n' ∉ w) (hline : '\n' ∉ line) (hv : '\n' ∉ v)
    (hws : ∀ ch ∈ w, ch.isWhitespace) (hvs : ∀ ch ∈ v, ch.isWhitespace) :
    lineTokens (w ++ line ++ v) = lineTokens line := by
  rw [lineTokens_line (by simp [hw, hline, hv]), lineTokens_line hline, tokensOf_trailing _ v hvs,
    tokensOf_leading w line hws]

/-- Settles O38: a program parses line by line (`lineTokens_append_line_append`), a blank line has no tokens, and
whitespace around a line changes none of its tokens. -/
theorem sourceLinesStandAlone : Obligations.SourceLinesStandAlone := by
  intro before line after w v hb ha hline hw hv hws hvs
  have hblank : lineTokens (before ++ w ++ after) = lineTokens before ++ lineTokens (after.drop 1) := by
    rw [lineTokens_append_line_append hb ha, lineTokens_blank hw hws, List.append_nil]
  simp only [parseProgram_eq_mapM]
  refine ⟨?_, ?_, ?_, fun hne hbad => ?_⟩
  · rw [hblank, lineTokens_append_of_startsLine ha]
  · rw [hblank, lineTokens_append_of_endsLine hb]
  · rw [lineTokens_append_line_append hb ha, lineTokens_append_line_append hb ha,
      lineTokens_surround hw hline hv hws hvs]
  · have htokens : lineTokens line = [tokensOf line] := by simp [lineTokens_line hline, hne]
    rw [lineTokens_append_line_append hb ha, htokens]
    simp [hbad]

/-- A program of one canonical line assembles to the encoding of its instruction. -/
theorem assembleText_canonicalLine {source : String} {i : Instr} (c : Config)
    (h : parseProgram source.toList = some [canonicalLine i]) : assembleText c source = .bytes (encode c i) := by
  have hline : assembleLine c [] (canonicalLine i) = .bytes (encode c i) := assembledLineIsTheEncoding c [] i
  have hsymbols : symbolsFrom 0 [canonicalLine i] = [] := rfl
  simp [assembleText, h, assemble, hsymbols, duplicateLabel, assembleLines, hline]

/-- Settles O37: the two texts parse to the canonical lines of LOAD 0, 100 and of HLT. -/
theorem sourceExamplesEncode : Obligations.SourceExamplesEncode :=
  fun c => ⟨assembleText_canonicalLine (i := .load 0 100) c (by decide),
    assembleText_canonicalLine (i := .hlt) c (by decide)⟩

end Sys2Proof.Machine
end

section
/-! 40_fetch_decode_execute.md R100 to R109: which instruction a step executes, which status it leaves, and that the
register fields of an instruction are checked before any effect. -/

namespace Sys2Proof.Machine

/-! ### The instruction a step executes (R100, R101) -/

/-- Where the fetched bytes decode to an instruction, the phases find it: at the end of the program there would be no
bytes to decode. -/
theorem fetchDecode_of_decode {s : State} {i : Instr} {rest : List Byte} (hok : s.status ≠ .faulted)
    (h : decode s.cfg s.fetched = .instr i rest) : fetchDecode s = .instr i := by
  have hpc : ¬s.len ≤ s.pc.toNat := fun hend => by
    have hlen := s.fetched_length
    rw [decode_short s.cfg s.fetched (by omega)] at h
    cases h
  simp [fetchDecode, hok, hpc, h]

/-- Settles O11: four bytes at pc are what is fetched. -/
theorem stepExecutesTheDecodedInstruction : Obligations.StepExecutesTheDecodedInstruction := by
  intro s b0 b1 b2 b3 i rest hok ⟨h0, h1, h2, h3⟩ hdec
  have hfetched : s.fetched = [b0, b1, b2, b3] := Memory.fetch4_of_read s.prog _ b0 b1 b2 b3 h0 h1 h2 h3
  exact step_of_instr s i (fetchDecode_of_decode hok (hfetched ▸ hdec))

theorem encode_length (c : Config) (i : Instr) : (encode c i).length = 4 := by
  cases i <;> rfl

/-- Settles O12: an encoding at pc is what is fetched, and it decodes to its instruction. -/
theorem encodedInstructionAtPcExecutes : Obligations.EncodedInstructionAtPcExecutes := by
  intro s i rest hwf hok hprog
  have hfetched : s.fetched = encode s.cfg i := by
    rw [State.fetched, Memory.fetch4, hprog, List.take_left' (encode_length s.cfg i)]
  have hdec : decode s.cfg (encode s.cfg i) = .instr i [] := by
    simpa using hwf.decode_encode_append i []
  exact step_of_instr s i (fetchDecode_of_decode hok (hfetched ▸ hdec))

/-- The bytes of a full fetch are the bytes at the address: the converse of `Memory.fetch4_of_read`. -/
theorem Memory.holds4_of_fetch4 {m : Memory} {a : Nat} {b0 b1 b2 b3 : Byte} (h : m.fetch4 a = [b0, b1, b2, b3]) :
    m.Holds4 a b0 b1 b2 b3 := by
  have hread (k : Nat) (hk : k < 4) : m.read (a + k) = [b0, b1, b2, b3][k]? := by
    rw [← h, Memory.fetch4, List.getElem?_take_of_lt hk, List.getElem?_drop, Memory.read_eq]
  exact ⟨hread 0 (by decide), hread 1 (by decide), hread 2 (by decide), hread 3 (by decide)⟩

/-- The next step executes `i` exactly if the fetch and decode phases find `i`. -/
theorem State.runs_iff (s : State) (i : Instr) : s.Runs i ↔ fetchDecode s = .instr i := by
  refine ⟨State.Runs.fetchDecode_eq, fun hi => ?_⟩
  have hlen := s.fetched_length
  rcases fetchDecode_cases s with ⟨-, hd⟩ | ⟨-, -, hd⟩ | ⟨-, -, -, hd⟩ | ⟨hok, h4, -⟩
  · cases hd.symm.trans hi
  · cases hd.symm.trans hi
  · cases hd.symm.trans hi
  · obtain ⟨b0, b1, b2, b3, hbytes⟩ := List.length_eq_four.mp (show s.fetched.length = 4 by omega)
    refine ⟨hok, b0, b1, b2, b3, Memory.holds4_of_fetch4 hbytes, ?_⟩
    simpa [fetchDecode_instr s hok b0 b1 b2 b3 hbytes] using hi

theorem State.not_runs_of_short {s : State} (h : s.len < s.pc.toNat + 4) (i : Instr) : ¬s.Runs i :=
  fun hi => Nat.not_le.mpr h hi.pc_add_four_le

/-- A step executes one instruction only. -/
theorem State.Runs.runs_iff_eq {s : State} {i : Instr} (hi : s.Runs i) (j : Instr) : s.Runs j ↔ i = j := by
  rw [State.runs_iff, hi.fetchDecode_eq, Fetched.instr.injEq]

theorem State.Runs.exec_eq {s t : State} {i : Instr} (hi : s.Runs i) (h : step s = .next t) : exec i s = .next t :=
  (step_of_instr s i hi.fetchDecode_eq).symm.trans h

/-! ### The status and the result of a step (R102, R107, R108) -/

/-- The status an instruction leaves: HLT and IGL their halts, every other one READY unless it faults. -/
theorem exec_status_cases {i : Instr} {s t : State} (h : exec i s = .next t) :
    (i = .hlt ∧ t.status = .haltedHlt) ∨ (i = .igl ∧ t.status = .haltedIllegal) ∨
      (i ≠ .hlt ∧ i ≠ .igl ∧ (t.status = .ready ∨ ∃ kind info, t = s.raiseFault kind info)) := by
  by_cases hhlt : i = .hlt
  · subst hhlt
    cases h
    exact .inl ⟨rfl, rfl⟩
  by_cases higl : i = .igl
  · subst higl
    cases h
    exact .inr (.inl ⟨rfl, rfl⟩)
  obtain ⟨e, he, rfl, -⟩ := exec_cases i s t h
  refine .inr (.inr ⟨hhlt, higl, ?_⟩)
  cases e with
  | fault kind info => exact .inr ⟨kind, info, rfl⟩
  | halt st => exact absurd he (by simp [Effect.Allowed, hhlt, higl])
  | _ => exact .inl rfl

/-- The status a step of an engine that is not FAULTED leaves, and what it found at pc. -/
theorem step_status_cases {s t : State} (hok : s.status ≠ .faulted) (h : step s = .next t) :
    (t.status = .haltedEnd ∧ s.len ≤ s.pc.toNat) ∨
      (s.pc.toNat < s.len ∧
        ((t.status = .haltedHlt ∧ s.Runs .hlt) ∨ (t.status = .haltedIllegal ∧ s.Runs .igl) ∨
          (t.status = .ready ∧ ∃ i, s.Runs i ∧ i ≠ .hlt ∧ i ≠ .igl) ∨
          ((∃ kind info, t = s.raiseFault kind info) ∧ ¬s.Runs .hlt ∧ ¬s.Runs .igl))) := by
  have hlen := s.fetched_length
  rcases step_cases s t h with ⟨hf, -⟩ | ⟨-, he, rfl⟩ | ⟨-, h1, h3, rfl⟩ | ⟨-, h4, i, hd, hexec⟩
  · exact absurd hf hok
  · exact .inl ⟨rfl, he⟩
  · have hno := State.not_runs_of_short (s := s) (by omega)
    exact .inr ⟨by omega, .inr (.inr (.inr ⟨⟨_, _, rfl⟩, hno _, hno _⟩))⟩
  · have hi : s.Runs i := (s.runs_iff i).mpr hd
    refine .inr ⟨by omega, ?_⟩
    rcases exec_status_cases hexec with ⟨rfl, hst⟩ | ⟨rfl, hst⟩ | ⟨hhlt, higl, hst | hfault⟩
    · exact .inl ⟨hst, hi⟩
    · exact .inr (.inl ⟨hst, hi⟩)
    · exact .inr (.inr (.inl ⟨hst, i, hi, hhlt, higl⟩))
    · exact .inr (.inr (.inr ⟨hfault, by rwa [hi.runs_iff_eq], by rwa [hi.runs_iff_eq]⟩))

/-- HALTED_END is left exactly by a step at or beyond the end of the program (R102). -/
theorem step_status_eq_haltedEnd_iff {s t : State} (hok : s.status ≠ .faulted) (h : step s = .next t) :
    t.status = .haltedEnd ↔ s.len ≤ s.pc.toNat := by
  rcases step_status_cases hok h with ⟨hst, he⟩ | ⟨he, ⟨hst, -⟩ | ⟨hst, -⟩ | ⟨hst, -⟩ | ⟨⟨_, _, rfl⟩, -⟩⟩
  · exact iff_of_true hst he
  all_goals exact iff_of_false (by simp [*]) (Nat.not_le.mpr he)

theorem step_of_end {s : State} (hok : s.status ≠ .faulted) (he : s.len ≤ s.pc.toNat) : step s = .next s.haltEnd := by
  simp [step, fetchDecode_end s hok he]

/-! The result names the status; FAULTED has one where there is a record. -/

theorem State.result_eq_continue_iff (s : State) : s.result = some .continue ↔ s.status = .ready := by
  cases h : s.status <;> simp [State.result, h]

theorem State.result_eq_haltedHlt_iff (s : State) : s.result = some .haltedHlt ↔ s.status = .haltedHlt := by
  cases h : s.status <;> simp [State.result, h]

theorem State.result_eq_haltedIllegal_iff (s : State) :
    s.result = some .haltedIllegal ↔ s.status = .haltedIllegal := by
  cases h : s.status <;> simp [State.result, h]

theorem State.result_eq_haltedEnd_iff (s : State) : s.result = some .haltedEnd ↔ s.status = .haltedEnd := by
  cases h : s.status <;> simp [State.result, h]

theorem State.result_eq_haltedFault_iff (s : State) (k : FaultKind) :
    s.result = some (.haltedFault k) ↔ s.status = .faulted ∧ ∃ r, s.fault = some r ∧ r.kind = k := by
  cases h : s.status <;> simp [State.result, h]

/-- Settles O13: only a step at or beyond the end leaves HALTED_END, the status that gives the result Halted(End). -/
theorem endOfProgramWritesOnlyStatus : Obligations.EndOfProgramWritesOnlyStatus := by
  intro s hok
  refine ⟨fun he => ⟨step_of_end hok he, rfl⟩, fun t hlt h => ?_⟩
  rw [Ne, State.result_eq_haltedEnd_iff, step_status_eq_haltedEnd_iff hok h]
  exact Nat.not_le.mpr hlt

/-- Settles O18, by the statuses a step can leave (`step_status_cases`); a FAULTED one comes with a record. -/
theorem statusTellsTheResult : Obligations.StatusTellsTheResult := by
  intro s t hok h
  simp only [State.result_eq_continue_iff, State.result_eq_haltedHlt_iff, State.result_eq_haltedIllegal_iff,
    State.result_eq_haltedEnd_iff, State.result_eq_haltedFault_iff, true_and]
  refine ⟨step_status_eq_haltedEnd_iff hok h, ?_⟩
  rcases step_status_cases hok h with
    ⟨hst, he⟩ | ⟨-, ⟨hst, hi⟩ | ⟨hst, hi⟩ | ⟨hst, i, hi, hhlt, higl⟩ | ⟨⟨kind, info, rfl⟩, hhlt, higl⟩⟩
  · simp [hst, State.not_runs_of_short (Nat.lt_of_le_of_lt he (by omega))]
  · simp [hst, hi.runs_iff_eq]
  · simp [hst, hi.runs_iff_eq]
  · simp [hst, hi.runs_iff_eq, hhlt, higl]
  · simp [hhlt, higl]

/-- Every legal state has a result: a FAULTED one holds a record (R32). -/
theorem State.Inv.result_cases {s : State} (h : s.Inv) :
    s.result = some .continue ∨ s.result = some .haltedHlt ∨ s.result = some .haltedIllegal ∨
      s.result = some .haltedEnd ∨ ∃ r, s.fault = some r ∧ s.result = some (.haltedFault r.kind) := by
  obtain ⟨-, -, -, -, hiff, -⟩ := h
  cases hst : s.status with
  | faulted =>
    obtain ⟨r, hr⟩ := Option.isSome_iff_exists.mp (hiff.mp hst)
    exact .inr (.inr (.inr (.inr ⟨r, hr, by simp [State.result, hst, hr]⟩)))
  | _ => simp [State.result, hst]

/-- Settles O16: every step and every instruction has a next state, and a legal step leaves a legal state. -/
theorem everyStepReturnsOneResult : Obligations.EveryStepReturnsOneResult :=
  ⟨fun s => ⟨_, step_eq_next_after s, fun h => (h.after .step).result_cases⟩, exec_eq_next⟩

/-! ### Normal halts are not sticky (R109) -/

theorem fetchDecode_setStatus {s : State} {st : Status} (hok : s.status ≠ .faulted) (hst : st ≠ .faulted) :
    fetchDecode (s.setStatus st) = fetchDecode s :=
  (if_neg hst).trans (if_neg hok).symm

/-- Every effect writes the status, so the old one leaves no trace. -/
theorem Effect.apply_setStatus (s : State) (st : Status) (e : Effect) : e.apply (s.setStatus st) = e.apply s := by
  cases e <;> rfl

/-- No instruction sees the status. -/
theorem exec_setStatus (i : Instr) (s : State) (st : Status) : exec i (s.setStatus st) = exec i s := by
  obtain ⟨e, -, happly⟩ := exec_hasEffect i s
  rw [happly _ (.refl i s), happly (s.setStatus st) ⟨rfl, rfl, rfl, rfl, fun _ _ _ => rfl, fun _ => rfl⟩,
    e.apply_setStatus]

theorem step_setStatus {s : State} {st : Status} (hok : s.status ≠ .faulted) (hst : st ≠ .faulted) :
    step (s.setStatus st) = step s := by
  have hfetch := fetchDecode_setStatus hok hst
  rcases fetchDecode_cases s with ⟨hf, -⟩ | ⟨-, -, hd⟩ | ⟨-, -, -, hd⟩ | ⟨-, -, i, hd⟩
  · exact absurd hf hok
  · simp only [step, hfetch, hd]
    rfl
  · simp only [step, hfetch, hd]
    rfl
  · rw [step_of_instr _ i (hfetch.trans hd), step_of_instr s i hd, exec_setStatus]

/-- Settles O19: neither the fetch nor an instruction sees a normal status; HLT and IGL advance; and at the end of the
program a step sets the status that is set already. -/
theorem normalHaltsAreNotSticky : Obligations.NormalHaltsAreNotSticky := by
  refine ⟨fun s st hok hst => step_setStatus hok hst, fun s t hruns h => ?_, fun s t hok h hend => ?_⟩
  · rcases hruns with hi | hi <;> cases hi.exec_eq h <;> rfl
  · have he := (step_status_eq_haltedEnd_iff hok h).mp hend
    cases (step_of_end hok he).symm.trans h
    exact step_of_end (by simp) he

/-! ### The register fields are checked first (R105, R202) -/

theorem firstBadField_cons_of_lt {b : Byte} (bs : List Byte) (h : b.toNat < 32) :
    firstBadField (b :: bs) = firstBadField bs := by
  simp [firstBadField, h]

theorem firstBadField_cons_of_ge {b : Byte} (bs : List Byte) (h : 32 ≤ b.toNat) :
    firstBadField (b :: bs) = some b := by
  simp [firstBadField, h]

/-- `t`, made of `s`, has no new RegisterOutOfRange: its record is the one of `s`, or of another kind. -/
def State.NoFieldFault (s t : State) : Prop :=
  t.fault = s.fault ∨ ∃ r, t.fault = some r ∧ r.kind ≠ .registerOutOfRange

/-- The outcome of an operation on `s` that checks the register fields `fields` before any effect, in this order. -/
def ChecksFields (fields : List Byte) (s : State) (o : Result) : Prop :=
  match firstBadField fields with
  | some b => o = .next (s.raiseFault .registerOutOfRange b.toNat)
  | none => ∃ t, o = .next t ∧ s.NoFieldFault t

theorem ChecksFields.eq_raiseFault {fields : List Byte} {s : State} {o : Result} (h : ChecksFields fields s o)
    {b : Byte} (hbad : firstBadField fields = some b) : o = .next (s.raiseFault .registerOutOfRange b.toNat) := by
  simpa only [ChecksFields, hbad] using h

theorem ChecksFields.noFieldFault {fields : List Byte} {s t : State} (h : ChecksFields fields s (.next t))
    (hgood : firstBadField fields = none) : s.NoFieldFault t := by
  simpa [ChecksFields, hgood] using h

section
variable {s : State}

theorem checksFields_nil {t : State} (h : s.NoFieldFault t) : ChecksFields [] s (.next t) :=
  ⟨t, rfl, h⟩

theorem checksFields_withReg {b : Byte} {bs : List Byte} {k : Fin 32 → Result} (h : ∀ i, ChecksFields bs s (k i)) :
    ChecksFields (b :: bs) s (withReg b s k) := by
  rcases Nat.lt_or_ge b.toNat 32 with hb | hb
  · rw [ChecksFields, firstBadField_cons_of_lt bs hb, withReg_of_lt b s k hb]
    exact h _
  · rw [ChecksFields, firstBadField_cons_of_ge bs hb]
    exact withReg_of_ge b s k hb

theorem checksFields_withR {r : Byte} {k : Fin 32 → State} (h : ∀ i, s.NoFieldFault (k i)) :
    ChecksFields [r] s (withR r s k) :=
  checksFields_withReg fun i => checksFields_nil (h i)

theorem checksFields_withRR {r1 r2 : Byte} {k : Fin 32 → Fin 32 → State} (h : ∀ i j, s.NoFieldFault (k i j)) :
    ChecksFields [r1, r2] s (withRR r1 r2 s k) :=
  checksFields_withReg fun i => checksFields_withR (h i)

theorem checksFields_withRRR {r1 r2 r3 : Byte} {k : Fin 32 → Fin 32 → Fin 32 → State}
    (h : ∀ i j d, s.NoFieldFault (k i j d)) : ChecksFields [r1, r2, r3] s (withRRR r1 r2 r3 s k) :=
  checksFields_withReg fun i => checksFields_withRR (h i)

theorem noFieldFault_raiseFault {kind : FaultKind} (info : Int) (h : kind ≠ .registerOutOfRange) :
    s.NoFieldFault (s.raiseFault kind info) :=
  .inr ⟨_, rfl, h⟩

theorem noFieldFault_jumpTo (target : Int) : s.NoFieldFault (s.jumpTo target) := by
  rcases s.jumpTo_cases target with ⟨-, -, ht⟩ | ⟨-, ht⟩ <;> rw [ht]
  · exact .inl rfl
  · exact noFieldFault_raiseFault target (by decide)

theorem noFieldFault_growHeap (n : Int) : s.NoFieldFault (s.growHeap n) := by
  rcases s.growHeap_cases n with ⟨-, ht⟩ | ⟨-, -, ht⟩ | ⟨-, -, ht⟩ <;> rw [ht]
  · exact noFieldFault_raiseFault n (by decide)
  · exact noFieldFault_raiseFault n (by decide)
  · exact .inl rfl

theorem noFieldFault_divide (i j d : Fin 32) : s.NoFieldFault (divide i j d s) := by
  rcases divide_cases i j d s with ⟨-, ht⟩ | ⟨-, -, ht⟩ | ⟨-, -, ht⟩ <;> rw [ht]
  · exact noFieldFault_raiseFault _ (by decide)
  · exact noFieldFault_raiseFault _ (by decide)
  · exact .inl rfl

theorem checksFields_wrappedRRR (f : Int → Int → Int) (r1 r2 r3 : Byte) :
    ChecksFields [r1, r2, r3] s (wrappedRRR f r1 r2 r3 s) :=
  checksFields_withRRR fun _ _ _ => .inl rfl

theorem checksFields_wrappedR (f : Int → Int) (r : Byte) : ChecksFields [r] s (wrappedR f r s) :=
  checksFields_withR fun _ => .inl rfl

theorem checksFields_execLoad (r : Byte) (imm : Half) : ChecksFields [r] s (execLoad r imm s) :=
  checksFields_withR fun _ => .inl rfl

theorem checksFields_compareRegs (c : Relation) (r1 r2 : Byte) : ChecksFields [r1, r2] s (compareRegs c r1 r2 s) :=
  checksFields_withRR fun _ _ => .inl rfl

theorem checksFields_jumpIf (cond : Bool) (r : Byte) : ChecksFields [r] s (jumpIf cond r s) := by
  refine checksFields_withR fun i => ?_
  cases cond
  · exact .inl rfl
  · exact noFieldFault_jumpTo _

end

/-- Every instruction checks its register fields before any effect. -/
theorem exec_checksFields (i : Instr) (s : State) : ChecksFields i.regFields s (exec i s) := by
  cases i with
  | hlt | igl => exact checksFields_nil (.inl rfl)
  | load r imm => exact checksFields_execLoad r imm
  | add r1 r2 r3 | sub r1 r2 r3 | mul r1 r2 r3 => exact checksFields_wrappedRRR _ r1 r2 r3
  | div => exact checksFields_withRRR noFieldFault_divide
  | jmp => exact checksFields_withR fun j => noFieldFault_jumpTo (s.x j).toInt
  | jmpf => exact checksFields_withR fun j => noFieldFault_jumpTo (s.relativeBase + (s.x j).toInt)
  | jmpb => exact checksFields_withR fun j => noFieldFault_jumpTo (s.relativeBase - (s.x j).toInt)
  | eq r1 r2 | neq r1 r2 | gt r1 r2 | lt r1 r2 | gte r1 r2 | lte r1 r2 => exact checksFields_compareRegs _ r1 r2
  | jeq r | jneq r => exact checksFields_jumpIf _ r
  | aloc => exact checksFields_withR fun j => noFieldFault_growHeap (s.x j).toInt
  | inc r => exact checksFields_wrappedR (fun a => a + 1) r
  | dec r => exact checksFields_wrappedR (fun a => a - 1) r

/-- Settles O20: the operand form of each instruction checks the fields of its format in byte order, and what follows
the checks raises other faults only (`exec_checksFields`). -/
theorem registerFieldsAreCheckedFirst : Obligations.RegisterFieldsAreCheckedFirst := by
  refine ⟨fun c b0 b1 b2 b3 => ?_, fun i s b hbad => (exec_checksFields i s).eq_raiseFault hbad,
    fun i s t hgood hnone h r hr => ?_⟩
  · unfold decodeWord
    cases decodeOpcode c b0 <;> rfl
  · rcases (h ▸ exec_checksFields i s).noFieldFault hgood with hsame | ⟨r', hr', hkind⟩
    · cases hr.symm.trans (hsame.trans hnone)
    · cases hr'.symm.trans hr
      exact hkind

end Sys2Proof.Machine
end

section
/-! 40_fetch_decode_execute.md R110 to R116: the host's commands LOAD-PROGRAM, APPEND and RUN. -/

namespace Sys2Proof.Machine

/-- Settles O4: every command keeps a state legal. -/
theorem hostCommandsKeepLegalStates : Obligations.HostCommandsKeepLegalStates :=
  fun _ bs h => ⟨h.after .reset, h.after (.loadProgram bs), h.after (.append bs)⟩

/-- Settles O26, by the two answers of LOAD-PROGRAM. -/
theorem loadProgramReplacesTheBuffer : Obligations.LoadProgramReplacesTheBuffer := by
  intro s bs
  rcases hostLoadProgram_cases bs s with ⟨hle, hs⟩ | ⟨hlt, hs⟩
  · exact ⟨fun _ => ⟨hs, by simp only [Command.after, hs]⟩, fun hlt => absurd hlt (Nat.not_lt.mpr hle)⟩
  · exact ⟨fun hle => absurd hlt (Nat.not_lt.mpr hle), fun _ => ⟨hs, by simp only [Command.after, hs]⟩⟩

/-- Settles O27, by the two answers of APPEND; the byte at pc is in the old program. -/
theorem appendExtendsTheBuffer : Obligations.AppendExtendsTheBuffer := by
  intro s bs
  rcases hostAppend_cases bs s with ⟨hle, hs⟩ | ⟨hlt, hs⟩
  · have hafter : (Command.append bs).after s = { s with prog := s.prog ++ bs } := by simp only [Command.after, hs]
    exact ⟨fun _ => ⟨hs, hafter, fun hpc => hafter ▸ s.prog.read_append_left bs _ hpc⟩,
      fun hlt => absurd hlt (Nat.not_lt.mpr hle)⟩
  · exact ⟨fun hle => absurd hlt (Nat.not_lt.mpr hle), fun _ => ⟨hs, by simp only [Command.after, hs]⟩⟩

/-! ### RUN (R114, R116) -/

/-- The `k + 1`st step from `s` is the first that halts, and it leaves `t`. -/
def HaltsAfter (k : Nat) (s t : State) : Prop :=
  t = stepN (k + 1) s ∧ t.status ≠ .ready ∧ ∀ j, j < k → (stepN (j + 1) s).status = .ready

theorem haltsAfter_zero {s t : State} :
    HaltsAfter 0 s t ↔ t = Command.step.after s ∧ (Command.step.after s).status ≠ .ready := by
  simp +contextual [HaltsAfter, stepN]

theorem haltsAfter_succ {k : Nat} {s t : State} :
    HaltsAfter (k + 1) s t ↔ (Command.step.after s).status = .ready ∧ HaltsAfter k (Command.step.after s) t := by
  rw [HaltsAfter, Nat.forall_lt_succ_left]
  exact ⟨fun ⟨ht, hst, h0, hk⟩ => ⟨h0, ht, hst, hk⟩, fun ⟨h0, ht, hst, hk⟩ => ⟨ht, hst, h0, hk⟩⟩

theorem hostRun_succ_of_ready {s : State} (fuel : Nat) (h : (Command.step.after s).status = .ready) :
    hostRun (fuel + 1) s = hostRun fuel (Command.step.after s) := by
  simp [hostRun, h]

theorem hostRun_succ_of_halt {s : State} (fuel : Nat) (h : (Command.step.after s).status ≠ .ready) :
    hostRun (fuel + 1) s = some (Command.step.after s) := by
  simp [hostRun, h]

/-- A RUN within `fuel` steps returns the state after the first halt among them. -/
theorem hostRun_eq_some_iff (fuel : Nat) (s t : State) : hostRun fuel s = some t ↔ ∃ k < fuel, HaltsAfter k s t := by
  induction fuel generalizing s with
  | zero => simp [hostRun]
  | succ fuel ih =>
    simp only [Nat.exists_lt_succ_left, haltsAfter_zero, haltsAfter_succ]
    by_cases h : (Command.step.after s).status = .ready
    · simp [hostRun_succ_of_ready fuel h, ih, h]
    · simp [hostRun_succ_of_halt fuel h, h, eq_comm]

/-- A RUN within `fuel` steps does not return exactly if each of them leaves READY. -/
theorem hostRun_eq_none_iff (fuel : Nat) (s : State) :
    hostRun fuel s = none ↔ ∀ k < fuel, (stepN (k + 1) s).status = .ready := by
  induction fuel generalizing s with
  | zero => simp [hostRun]
  | succ fuel ih =>
    rw [Nat.forall_lt_succ_left]
    by_cases h : (Command.step.after s).status = .ready
    · simp [hostRun_succ_of_ready fuel h, ih, h, stepN]
    · simp [hostRun_succ_of_halt fuel h, h, stepN]

theorem runEnds_iff (s t : State) : RunEnds s t ↔ ∃ k, HaltsAfter k s t := by
  simp only [RunEnds, hostRun_eq_some_iff]
  exact ⟨fun ⟨_, k, _, hk⟩ => ⟨k, hk⟩, fun ⟨k, hk⟩ => ⟨k + 1, k, Nat.lt_succ_self k, hk⟩⟩

theorem runHangs_iff (s : State) : RunHangs s ↔ ∀ k, (stepN (k + 1) s).status = .ready := by
  simp only [RunHangs, hostRun_eq_none_iff]
  exact ⟨fun h k => h (k + 1) k (Nat.lt_succ_self k), fun h _ k _ => h k⟩

/-- Of two first halts neither comes after the other, since every step before a first halt leaves READY. -/
theorem HaltsAfter.le {j k : Nat} {s t u : State} (ht : HaltsAfter j s t) (hu : HaltsAfter k s u) : k ≤ j := by
  obtain ⟨rfl, hhalt, -⟩ := ht
  obtain ⟨-, -, hready⟩ := hu
  exact Nat.not_lt.mp fun hlt => hhalt (hready j hlt)

theorem HaltsAfter.unique {j k : Nat} {s t u : State} (ht : HaltsAfter j s t) (hu : HaltsAfter k s u) : t = u := by
  obtain rfl : j = k := Nat.le_antisymm (hu.le ht) (ht.le hu)
  obtain ⟨rfl, -⟩ := ht
  obtain ⟨rfl, -⟩ := hu
  rfl

/-- Settles O29: a RUN returns the state after the first halt (`hostRun_eq_some_iff`), of which there is at most one,
and returns nothing while each step leaves READY (`hostRun_eq_none_iff`). -/
theorem runReturnsAtTheFirstHalt : Obligations.RunReturnsAtTheFirstHalt := by
  refine ⟨runEnds_iff, fun s t u ht hu => ?_, runHangs_iff⟩
  obtain ⟨j, hj⟩ := (runEnds_iff s t).mp ht
  obtain ⟨k, hk⟩ := (runEnds_iff s u).mp hu
  exact hj.unique hk

end Sys2Proof.Machine
end

section
/-! 41_arithmetic.md: LOAD, ADD, SUB, MUL, DIV, INC and DEC. -/

namespace Sys2Proof.Machine

/-! ### Operands that name registers -/

theorem withR_of_lt {r : Byte} (hr : r.toNat < 32) (s : State) (k : Fin 32 → State) :
    withR r s k = .next (k ⟨r.toNat, hr⟩) :=
  withReg_of_lt r s _ hr

theorem withRRR_of_lt {r1 r2 r3 : Byte} (h1 : r1.toNat < 32) (h2 : r2.toNat < 32) (h3 : r3.toNat < 32) (s : State)
    (k : Fin 32 → Fin 32 → Fin 32 → State) :
    withRRR r1 r2 r3 s k = .next (k ⟨r1.toNat, h1⟩ ⟨r2.toNat, h2⟩ ⟨r3.toNat, h3⟩) := by
  rw [withRRR, withReg_of_lt r1 _ _ h1, withReg_of_lt r2 _ _ h2, withReg_of_lt r3 _ _ h3]

theorem wrappedR_of_lt (f : Int → Int) {r : Byte} (hr : r.toNat < 32) (s : State) :
    wrappedR f r s = .next (s.setX ⟨r.toNat, hr⟩ (wrap32 (f s.regs[r.toNat].toInt))).continueNext :=
  withR_of_lt hr s _

theorem wrappedRRR_of_lt (f : Int → Int → Int) {r1 r2 r3 : Byte} (h1 : r1.toNat < 32) (h2 : r2.toNat < 32)
    (h3 : r3.toNat < 32) (s : State) :
    wrappedRRR f r1 r2 r3 s =
      .next (s.setX ⟨r3.toNat, h3⟩ (wrap32 (f s.regs[r1.toNat].toInt s.regs[r2.toNat].toInt))).continueNext :=
  withRRR_of_lt h1 h2 h3 s _

theorem exec_badFieldFaults (i : Instr) (s : State) : BadFieldFaults i i.regFields s :=
  fun _ hbad => (exec_checksFields i s).eq_raiseFault hbad

/-! ### Signed division (R134, R138) -/

section
variable {s : State} {i j : Fin 32} (d : Fin 32)

theorem divide_of_zero (h0 : (s.x j).toInt = 0) : divide i j d s = s.raiseFault .divisionByZero j.val := by
  simp [divide, h0]

theorem divide_of_overflow (ha : (s.x i).toInt = -2 ^ 31) (hb : (s.x j).toInt = -1) :
    divide i j d s = s.raiseFault .divisionOverflow j.val := by
  simp [divide, ha, hb]

/-- A division that does not fault leaves the truncated quotient and the remainder that goes with it. -/
theorem divide_of_defined (h0 : (s.x j).toInt ≠ 0) (hov : ¬((s.x i).toInt = -2 ^ 31 ∧ (s.x j).toInt = -1)) :
    divide i j d s = ((s.setX d (wrap32 ((s.x i).toInt.tdiv (s.x j).toInt))).setRem
      (u32 ((s.x i).toInt.tmod (s.x j).toInt))).continueNext := by
  simp only [divide, h0, hov, if_false, Int.tmod_def, Int.mul_comm]

end

theorem exec_div_of_lt {r1 r2 r3 : Byte} (h1 : r1.toNat < 32) (h2 : r2.toNat < 32) (h3 : r3.toNat < 32) (s : State) :
    exec (.div r1 r2 r3) s = .next (divide ⟨r1.toNat, h1⟩ ⟨r2.toNat, h2⟩ ⟨r3.toNat, h3⟩ s) :=
  withRRR_of_lt h1 h2 h3 s fun i j d => divide i j d s

/-- Only -2^31 / -1 has a quotient outside `Int32`. -/
theorem wrap32_tdiv_toInt {a b : Word} (hov : ¬(a.toInt = -2 ^ 31 ∧ b.toInt = -1)) :
    (wrap32 (a.toInt.tdiv b.toInt)).toInt = a.toInt.tdiv b.toInt := by
  have hne : a ≠ BitVec.intMin 32 ∨ b ≠ -1#32 := by
    by_contra! h
    obtain ⟨rfl, rfl⟩ := h
    exact hov (by decide)
  rw [wrap32_toInt, ← BitVec.toInt_sdiv, BitVec.toInt_sdiv_of_ne_or_ne a b hne]

theorem natAbs_tmod_lt (a : Int) {b : Int} (h0 : b ≠ 0) : (a.tmod b).natAbs < b.natAbs := by
  rw [Int.natAbs_tmod]
  exact Nat.mod_lt _ (Int.natAbs_pos.mpr h0)

theorem tmod_eq_zero_or_sign_eq (a b : Int) : a.tmod b = 0 ∨ (a.tmod b).sign = a.sign := by
  have hsign := Int.sign_tmod a b
  split at hsign
  · exact .inl (Int.sign_eq_zero_iff_zero.mp hsign)
  · exact .inr hsign

/-- The quotient rounds toward zero. -/
theorem natAbs_tdiv_mul_le (a b : Int) : (a.tdiv b * b).natAbs ≤ a.natAbs := by
  rw [Int.natAbs_mul, Int.natAbs_tdiv]
  exact Nat.div_mul_le_self _ _

/-- A remainder smaller than an `Int32` divisor reads, unsigned, as itself, or as 2^32 more when it is negative. -/
theorem u32_toNat_of_natAbs_lt {m : Int} {b : Word} (h : m.natAbs < b.toInt.natAbs) :
    ((u32 m).toNat : Int) = if m < 0 then 2 ^ 32 + m else m := by
  have hlow : -2 ^ 31 ≤ b.toInt := BitVec.le_toInt b
  have hhigh : b.toInt < 2 ^ 31 := BitVec.toInt_lt
  rw [u32_toNat]
  split <;> omega

/-- What a DIV that does not fault leaves in its two results: the exact quotient, and the pattern of the remainder. -/
theorem exec_div_of_defined {s : State} {r1 r2 r3 : Byte} (h1 : r1.toNat < 32) (h2 : r2.toNat < 32)
    (h3 : r3.toNat < 32) (h0 : s.regs[r2.toNat].toInt ≠ 0)
    (hov : ¬(s.regs[r1.toNat].toInt = -2 ^ 31 ∧ s.regs[r2.toNat].toInt = -1)) :
    ∃ t, exec (.div r1 r2 r3) s = .next t ∧ t.status = .ready ∧
      t.regs[r3.toNat].toInt = s.regs[r1.toNat].toInt.tdiv s.regs[r2.toNat].toInt ∧
      t.rem = u32 (s.regs[r1.toNat].toInt.tmod s.regs[r2.toNat].toInt) :=
  ⟨_, (exec_div_of_lt h1 h2 h3 s).trans (congrArg _ (divide_of_defined _ h0 hov)), rfl,
    by simpa [State.x] using wrap32_tdiv_toInt hov, rfl⟩

/-- Settles O44: the quotient is exact (`exec_div_of_defined`), and truncated division in the integers has the law,
the bounds and the sign. -/
theorem divisionLaw : Obligations.DivisionLaw := by
  intro s r1 r2 r3 h1 h2 h3 h0 hov
  obtain ⟨t, hexec, hready, hquot, hrem⟩ := exec_div_of_defined h1 h2 h3 h0 hov
  have hlt := natAbs_tmod_lt s.regs[r1.toNat].toInt h0
  refine ⟨t, _, hexec, hready, ?_, hlt, tmod_eq_zero_or_sign_eq _ _, ?_, hrem ▸ u32_toNat_of_natAbs_lt hlt⟩ <;>
    rw [hquot]
  · exact (Int.tdiv_mul_add_tmod _ _).symm
  · exact natAbs_tdiv_mul_le _ _

/-- Settles O43, by the three outcomes of a division. -/
theorem divWritesQuotientAndRemainder : Obligations.DivWritesQuotientAndRemainder := by
  refine fun s r1 r2 r3 => ⟨fun _ => rfl, fun h1 h2 h3 => ?_, exec_badFieldFaults (.div r1 r2 r3) s⟩
  rw [exec_div_of_lt h1 h2 h3]
  exact ⟨fun h0 => congrArg _ (divide_of_zero _ h0), fun ha hb => congrArg _ (divide_of_overflow _ ha hb),
    fun h0 hov => congrArg _ (divide_of_defined _ h0 hov)⟩

/-! ### Load-immediate and wrapped arithmetic (R130 to R133, R135 to R137) -/

theorem sext16_eq_ofInt_ite (h : Half) :
    sext16 h = BitVec.ofInt 32 (if h.getLsbD 15 then (h.toNat : Int) - 2 ^ 16 else (h.toNat : Int)) :=
  congrArg _ (half_toInt_eq_ite h)

/-- Settles O39: the immediate is `be16 hh ll`, and sign extension is by its bit 15. -/
theorem loadSignExtendsImmediate : Obligations.LoadSignExtendsImmediate := by
  intro s r hh ll
  refine ⟨be16 hh ll, fun _ => rfl, be16_toNat hh ll, fun hr => ?_, exec_badFieldFaults (.load r _) s⟩
  rw [exec_load_of_lt hr, sext16_eq_ofInt_ite]
  rfl

/-- Settles O40: `exec` of ADD is `wrappedRRR` of the sum. -/
theorem addWrapsIntoDestination : Obligations.AddWrapsIntoDestination := fun s r1 r2 r3 =>
  ⟨fun _ => rfl, fun h1 h2 h3 => wrappedRRR_of_lt (fun a b => a + b) h1 h2 h3 s,
    exec_badFieldFaults (.add r1 r2 r3) s⟩

/-- Settles O41: `exec` of SUB is `wrappedRRR` of the difference. -/
theorem subWrapsIntoDestination : Obligations.SubWrapsIntoDestination := fun s r1 r2 r3 =>
  ⟨fun _ => rfl, fun h1 h2 h3 => wrappedRRR_of_lt (fun a b => a - b) h1 h2 h3 s,
    exec_badFieldFaults (.sub r1 r2 r3) s⟩

/-- Settles O42: `exec` of MUL is `wrappedRRR` of the product. -/
theorem mulWrapsIntoDestination : Obligations.MulWrapsIntoDestination := fun s r1 r2 r3 =>
  ⟨fun _ => rfl, fun h1 h2 h3 => wrappedRRR_of_lt (fun a b => a * b) h1 h2 h3 s,
    exec_badFieldFaults (.mul r1 r2 r3) s⟩

/-- Settles O45: `exec` of INC is `wrappedR` of the successor. -/
theorem incAddsOne : Obligations.IncAddsOne := fun s r =>
  ⟨fun _ _ _ => rfl, fun hr => wrappedR_of_lt (fun a => a + 1) hr s, exec_badFieldFaults (.inc r) s⟩

/-- Settles O46: `exec` of DEC is `wrappedR` of the predecessor. -/
theorem decSubtractsOne : Obligations.DecSubtractsOne := fun s r =>
  ⟨fun _ _ _ => rfl, fun hr => wrappedR_of_lt (fun a => a - 1) hr s, exec_badFieldFaults (.dec r) s⟩

end Sys2Proof.Machine
end

section
/-! 42_compare.md: EQ, NEQ, GT, LT, GTE and LTE. -/

namespace Sys2Proof.Machine

theorem withRR_of_lt {r1 r2 : Byte} (h1 : r1.toNat < 32) (h2 : r2.toNat < 32) (s : State)
    (k : Fin 32 → Fin 32 → State) : withRR r1 r2 s k = .next (k ⟨r1.toNat, h1⟩ ⟨r2.toNat, h2⟩) := by
  rw [withRR, withReg_of_lt r1 _ _ h1, withReg_of_lt r2 _ _ h2]

/-- A comparison of two registers writes the flag, and otherwise only ends the step (R150). -/
theorem compareRegs_of_lt (c : Relation) {r1 r2 : Byte} (h1 : r1.toNat < 32) (h2 : r2.toNat < 32) (s : State) :
    compareRegs c r1 r2 s = .next (s.setEqf (c.holds s.regs[r1.toNat] s.regs[r2.toNat])).continueNext :=
  withRR_of_lt h1 h2 s _

/-- Settles O47: `exec` of EQ is `compareRegs` of =. -/
theorem eqSetsFlag : Obligations.EqSetsFlag := fun s r1 r2 =>
  ⟨fun _ _ => rfl, fun h1 h2 => compareRegs_of_lt .eq h1 h2 s, exec_badFieldFaults (.eq r1 r2) s⟩

/-- Settles O48: `exec` of NEQ is `compareRegs` of ≠. -/
theorem neqSetsFlag : Obligations.NeqSetsFlag := fun s r1 r2 =>
  ⟨fun _ _ => rfl, fun h1 h2 => compareRegs_of_lt .neq h1 h2 s, exec_badFieldFaults (.neq r1 r2) s⟩

/-- Settles O49: `exec` of GT is `compareRegs` of >. -/
theorem gtSetsFlag : Obligations.GtSetsFlag := fun s r1 r2 =>
  ⟨fun _ _ => rfl, fun h1 h2 => compareRegs_of_lt .gt h1 h2 s, exec_badFieldFaults (.gt r1 r2) s⟩

/-- Settles O50: `exec` of LT is `compareRegs` of <. -/
theorem ltSetsFlag : Obligations.LtSetsFlag := fun s r1 r2 =>
  ⟨fun _ _ => rfl, fun h1 h2 => compareRegs_of_lt .lt h1 h2 s, exec_badFieldFaults (.lt r1 r2) s⟩

/-- Settles O51: `exec` of GTE is `compareRegs` of ≥. -/
theorem gteSetsFlag : Obligations.GteSetsFlag := fun s r1 r2 =>
  ⟨fun _ _ => rfl, fun h1 h2 => compareRegs_of_lt .gte h1 h2 s, exec_badFieldFaults (.gte r1 r2) s⟩

/-- Settles O52: `exec` of LTE is `compareRegs` of ≤. -/
theorem lteSetsFlag : Obligations.LteSetsFlag := fun s r1 r2 =>
  ⟨fun _ _ => rfl, fun h1 h2 => compareRegs_of_lt .lte h1 h2 s, exec_badFieldFaults (.lte r1 r2) s⟩

end Sys2Proof.Machine
end

section
/-! 43_control_flow.md: HLT, IGL, JMP, JMPF, JMPB, JEQ and JNEQ. -/

namespace Sys2Proof.Machine

/-! ### Where a taken jump goes (R160) -/

/-- The two outcomes of `jumpTo` are the two of R160. -/
theorem jumpsTo_of_exec_eq {i : Instr} {s : State} {t : Int} (h : exec i s = .next (s.jumpTo t)) : JumpsTo i s t :=
  ⟨fun h0 hlt => h.trans (congrArg _ (s.jumpTo_inside t h0 hlt)),
    fun hout => h.trans (congrArg _ (s.jumpTo_outside t hout))⟩

/-- An instruction that takes a jump writes no register and is no comparison. -/
theorem destField_isComparison_of_takesJump {eqf : Bool} {i : Instr} (h : takesJump eqf i = true) :
    destField i = none ∧ isComparison i = false := by
  cases i with
  | jmp | jmpf | jmpb | jeq | jneq => exact ⟨rfl, rfl⟩
  | _ => cases h

/-- A taken jump has one of two effects: the jump, to a target inside the program, or a fault. -/
theorem Effect.Allowed.jump_or_fault {i : Instr} {s : State} {e : Effect} (he : e.Allowed i s)
    (ht : takesJump s.eqf i = true) :
    (∃ a, e = .jump a ∧ 0 ≤ a ∧ a < s.len) ∨ ∃ kind info, e = .fault kind info := by
  obtain ⟨hdest, hcmp⟩ := destField_isComparison_of_takesJump ht
  cases e with
  | jump a =>
    obtain ⟨-, hinside⟩ := he
    exact .inl ⟨a, rfl, hinside⟩
  | fault kind info => exact .inr ⟨kind, info, rfl⟩
  | halt st => rcases he with ⟨rfl, -⟩ | ⟨rfl, -⟩ <;> cases ht
  | write d v =>
    obtain ⟨b, hb, -⟩ := he
    cases hdest.symm.trans hb
  | divide d q r =>
    obtain ⟨r1, r2, r3, rfl, -⟩ := he
    cases ht
  | flag b => cases hcmp.symm.trans he
  | grow n =>
    obtain ⟨⟨r, rfl⟩, -⟩ := he
    cases ht
  | skip =>
    obtain ⟨-, hnot⟩ := he
    cases ht.symm.trans hnot

/-- An offset inside a program of fewer than 2^32 bytes fits the pc. -/
theorem State.Inv.toNat_ofInt_lt_len {s : State} (h : s.Inv) {a : Int} (h0 : 0 ≤ a) (hlt : a < s.len) :
    (BitVec.ofInt 32 a).toNat < s.len := by
  have hlen := h.len_lt
  rw [BitVec.toNat_ofInt, Int.emod_eq_of_lt h0 (by omega)]
  omega

/-- From a legal state a taken jump that does not fault leaves the pc on a byte of the program. -/
theorem State.Inv.pc_lt_of_takesJump {s t : State} {i : Instr} (h : s.Inv) (ht : takesJump s.eqf i = true)
    (hexec : exec i s = .next t) (hok : t.status ≠ .faulted) : t.pc.toNat < t.len := by
  obtain ⟨e, he, rfl, -⟩ := exec_cases i s t hexec
  rcases he.jump_or_fault ht with ⟨a, rfl, h0, hlt⟩ | ⟨kind, info, rfl⟩
  · exact h.toNat_ofInt_lt_len h0 hlt
  · exact absurd rfl hok

/-- Settles O33: the target of a taken jump is below `len`, and only a step at or beyond `len` leaves HALTED_END. -/
theorem takenJumpNeverReachesTheEnd : Obligations.TakenJumpNeverReachesTheEnd := by
  intro s t u i r h hruns hi hstep hok hnext
  have ht : takesJump s.eqf i = true := by
    rcases hi with rfl | rfl | rfl | ⟨rfl, heqf⟩ | ⟨rfl, heqf⟩ <;> simp [takesJump, *]
  have hpc := h.pc_lt_of_takesJump ht (hruns.exec_eq hstep) hok
  exact ⟨hpc, mt (step_status_eq_haltedEnd_iff hok hnext).mp (Nat.not_le.mpr hpc)⟩

/-! ### A jump to itself (R162, R114, R240) -/

theorem stepN_of_after_eq {s : State} (h : Command.step.after s = s) (n : Nat) : stepN n s = s := by
  induction n with
  | zero => rfl
  | succ n ih => rw [stepN, h, ih]

/-- A JMP to the pc writes the status only. -/
theorem exec_jmp_self {s : State} {r : Byte} (hr : r.toNat < 32) (hx : s.regs[r.toNat].toInt = s.pc.toNat)
    (hpc : s.pc.toNat < s.len) : exec (.jmp r) s = .next (s.setStatus .ready) := by
  rw [exec_jmp_inside hr hx hpc, BitVec.ofInt_natCast, BitVec.ofNat_toNat, BitVec.setWidth_eq]
  rfl

/-- Settles O30: the first step writes READY, and since no step sees a normal status (`step_setStatus`) every later one
writes READY again. -/
theorem selfJumpRunsForever : Obligations.SelfJumpRunsForever := by
  intro s r hr hruns hx
  have ⟨hok, _⟩ := hruns
  have h4 := hruns.pc_add_four_le
  have hstep : step s = .next (s.setStatus .ready) :=
    (step_of_instr s _ hruns.fetchDecode_eq).trans (exec_jmp_self hr hx (by omega))
  have hagain : step (s.setStatus .ready) = .next (s.setStatus .ready) :=
    (step_setStatus hok (by decide)).trans hstep
  have hall (n : Nat) : stepN (n + 1) s = s.setStatus .ready := by
    rw [stepN, after_step_of_next _ _ hstep, stepN_of_after_eq (after_step_of_next _ _ hagain)]
  exact ⟨(runHangs_iff s).mpr fun k => by rw [hall, State.setStatus_status], hall⟩

/-! ### HLT and IGL (R161, R167) -/

/-- Settles O53: HLT's byte is the first the decoder looks for, and no step sees a normal status. -/
theorem hltHalts : Obligations.HltHalts := fun s =>
  ⟨fun _ _ _ _ _ => rfl, rfl, rfl,
    (step_setStatus (s := s.haltAfter .haltedHlt) (st := .ready) (by simp) (by decide)).symm⟩

/-- A byte assigned to no executable operation code decodes to IGL, whatever the operand bytes (D34). -/
theorem decode_of_unassigned (c : Config) {b0 : Byte} (h : ∀ op, op ≠ .igl → c.opcodes.byte op ≠ b0)
    (b1 b2 b3 : Byte) (rest : List Byte) : decode c (b0 :: b1 :: b2 :: b3 :: rest) = .instr .igl rest := by
  rw [decode_cons4, decodeWord, (decodeOpcode_eq_igl_iff c b0).mpr h]

/-- The reference assignment gives the executable operation codes the bytes below 0x14 (R63). -/
theorem reference_byte_lt {op : Opcode} (h : op ≠ .igl) : (Config.reference.opcodes.byte op).toNat < 0x14 := by
  have hall : ∀ op ∈ Opcode.executable, (Config.reference.opcodes.byte op).toNat < 0x14 := by decide
  exact hall op ((mem_executable op).mpr h)

/-- Settles O54: an unassigned byte decodes to IGL, and from 0x14 on the reference assignment assigns none. -/
theorem iglHaltsIllegal : Obligations.IglHaltsIllegal := by
  refine fun s => ⟨fun c _ b1 b2 b3 rest h => decode_of_unassigned c h b1 b2 b3 rest,
    fun b0 b1 b2 b3 rest hb0 => ?_, rfl, rfl⟩
  refine decode_of_unassigned Config.reference (fun op hop heq => ?_) b1 b2 b3 rest
  exact Nat.not_le.mpr (reference_byte_lt hop) (heq ▸ hb0)

/-! ### The jumps (R162 to R166) -/

theorem jumpIf_of_taken {cond : Bool} {r : Byte} (hc : cond = true) (hr : r.toNat < 32) (s : State) :
    jumpIf cond r s = .next (s.jumpTo s.regs[r.toNat].toInt) := by
  subst hc
  exact withR_of_lt hr s _

/-- A jump that is not taken does not check its target. -/
theorem jumpIf_of_not_taken {cond : Bool} {r : Byte} (hc : cond = false) (hr : r.toNat < 32) (s : State) :
    jumpIf cond r s = .next s.continueNext := by
  subst hc
  exact withR_of_lt hr s _

/-- Settles O55: `exec` of JMP is `jumpTo` of the register. -/
theorem jmpGoesToRegister : Obligations.JmpGoesToRegister := fun s r =>
  ⟨fun _ _ _ => rfl, fun hr => jumpsTo_of_exec_eq (withR_of_lt hr s fun i => s.jumpTo (s.x i).toInt),
    exec_badFieldFaults (.jmp r) s⟩

/-- Settles O56: `exec` of JMPF is `jumpTo` of the base plus the register. -/
theorem jmpfGoesForward : Obligations.JmpfGoesForward := fun s r =>
  ⟨fun _ _ _ => rfl,
    fun hr => jumpsTo_of_exec_eq (withR_of_lt hr s fun i => s.jumpTo (s.relativeBase + (s.x i).toInt)),
    exec_badFieldFaults (.jmpf r) s⟩

/-- Settles O57: `exec` of JMPB is `jumpTo` of the base minus the register. -/
theorem jmpbGoesBackward : Obligations.JmpbGoesBackward := fun s r =>
  ⟨fun _ _ _ => rfl,
    fun hr => jumpsTo_of_exec_eq (withR_of_lt hr s fun i => s.jumpTo (s.relativeBase - (s.x i).toInt)),
    exec_badFieldFaults (.jmpb r) s⟩

/-- Settles O58: `exec` of JEQ is `jumpIf` of the flag. -/
theorem jeqJumpsOnSetFlag : Obligations.JeqJumpsOnSetFlag := fun s r =>
  ⟨fun _ _ _ => rfl,
    fun hr => ⟨fun hset => jumpsTo_of_exec_eq (jumpIf_of_taken hset hr s),
      fun hclear => jumpIf_of_not_taken hclear hr s⟩,
    exec_badFieldFaults (.jeq r) s⟩

/-- Settles O59: `exec` of JNEQ is `jumpIf` of the negated flag. -/
theorem jneqJumpsOnClearFlag : Obligations.JneqJumpsOnClearFlag := fun s r =>
  ⟨fun _ _ _ => rfl,
    fun hr => ⟨fun hclear => jumpsTo_of_exec_eq (jumpIf_of_taken (congrArg not hclear) hr s),
      fun hset => jumpIf_of_not_taken (congrArg not hset) hr s⟩,
    exec_badFieldFaults (.jneq r) s⟩

end Sys2Proof.Machine
end

section
/-! 44_heap.md: ALOC, and the length of the heap over a run. -/

namespace Sys2Proof.Machine

/-! ### Growing the heap (R180) -/

section
variable {s : State} {n : Int}

theorem State.growHeap_of_neg (h : n < 0) : s.growHeap n = s.raiseFault .negativeHeapGrowth n := by
  simp [State.growHeap, h]

theorem State.growHeap_of_exhausted (h0 : 0 ≤ n) (h : s.cfg.heapMax < s.heapLen + n) :
    s.growHeap n = s.raiseFault .heapExhausted n := by
  simp [State.growHeap, Int.not_lt.mpr h0, h]

theorem State.growHeap_of_fits (h0 : 0 ≤ n) (h : s.heapLen + n ≤ s.cfg.heapMax) :
    s.growHeap n = (s.setHeapLen (s.heapLen + n.toNat)).continueNext := by
  simp [State.growHeap, Int.not_lt.mpr h0, Int.not_lt.mpr h]

end

/-- A growth that faults adds nothing. -/
theorem State.growHeap_heapLen (s : State) (n : Int) :
    (s.growHeap n).heapLen = s.heapLen + if 0 ≤ n ∧ s.heapLen + n ≤ s.cfg.heapMax then n.toNat else 0 := by
  rcases s.growHeap_cases n with ⟨hneg, ht⟩ | ⟨-, hmax, ht⟩ | ⟨h0, hfits, ht⟩
  · rw [ht, if_neg (by omega), State.raiseFault_heapLen, Nat.add_zero]
  · rw [ht, if_neg (by omega), State.raiseFault_heapLen, Nat.add_zero]
  · rw [ht, if_pos ⟨h0, hfits⟩, State.continueNext_heapLen, State.setHeapLen_heapLen]

/-- Every byte of the heap holds 0. -/
theorem State.heapByte_of_lt {s : State} {a : Nat} (h : a < s.heapLen) : s.heapByte a = some 0 :=
  if_pos h

theorem exec_aloc_of_lt {r : Byte} (hr : r.toNat < 32) (s : State) :
    exec (.aloc r) s = .next (s.growHeap s.regs[r.toNat].toInt) :=
  withR_of_lt hr s fun i => s.growHeap (s.x i).toInt

/-- Settles O60, by the three outcomes of `growHeap`. -/
theorem alocGrowsTheHeap : Obligations.AlocGrowsTheHeap := by
  refine fun s r => ⟨fun _ _ _ => rfl, fun hr => ?_, exec_badFieldFaults (.aloc r) s⟩
  rw [exec_aloc_of_lt hr]
  refine ⟨fun hneg => congrArg _ (State.growHeap_of_neg hneg),
    fun h0 hmax => congrArg _ (State.growHeap_of_exhausted h0 hmax), fun h0 hfits => ?_⟩
  rw [State.growHeap_of_fits h0 hfits]
  refine ⟨_, rfl, ?_, rfl, fun _ _ => State.heapByte_of_lt⟩
  rw [State.continueNext_heapLen, State.setHeapLen_heapLen, Int.natCast_add, Int.toNat_of_nonneg h0]

/-! ### The length of the heap over a run (R181) -/

theorem State.alocGrowth_of_aloc {s : State} {r : Byte} (hd : fetchDecode s = .instr (.aloc r)) (hr : r.toNat < 32) :
    s.alocGrowth = if 0 ≤ s.regs[r.toNat].toInt ∧ s.heapLen + s.regs[r.toNat].toInt ≤ s.cfg.heapMax then
      s.regs[r.toNat].toInt.toNat else 0 := by
  rw [State.alocGrowth, hd]
  exact dif_pos hr

theorem State.alocGrowth_of_bad_field {s : State} {r : Byte} (hd : fetchDecode s = .instr (.aloc r))
    (hr : 32 ≤ r.toNat) : s.alocGrowth = 0 := by
  rw [State.alocGrowth, hd]
  exact dif_neg (Nat.not_lt.mpr hr)

theorem State.alocGrowth_of_not_aloc {s : State} (h : ∀ r, fetchDecode s ≠ .instr (.aloc r)) : s.alocGrowth = 0 := by
  unfold State.alocGrowth
  split
  · exact absurd ‹_› (h _)
  · rfl

theorem Effect.apply_heapLen (s : State) (e : Effect) : (e.apply s).heapLen = s.heapLen ∨ ∃ n, e = .grow n := by
  cases e with
  | grow n => exact .inr ⟨n, rfl⟩
  | _ => exact .inl rfl

/-- No instruction but ALOC grows the heap. -/
theorem exec_heapLen_of_not_aloc {i : Instr} {s t : State} (h : exec i s = .next t) (hi : ∀ r, i ≠ .aloc r) :
    t.heapLen = s.heapLen := by
  obtain ⟨e, he, rfl, -⟩ := exec_cases i s t h
  rcases e.apply_heapLen s with hkept | ⟨n, rfl⟩
  · exact hkept
  · obtain ⟨⟨r, hr⟩, -⟩ := he
    exact absurd hr (hi r)

/-- An executed ALOC adds what `alocGrowth` says. -/
theorem exec_aloc_heapLen {s t : State} {r : Byte} (hd : fetchDecode s = .instr (.aloc r))
    (h : exec (.aloc r) s = .next t) : t.heapLen = s.heapLen + s.alocGrowth := by
  rcases withR_cases r s t (fun i => s.growHeap (s.x i).toInt) h with ⟨hr, rfl⟩ | ⟨hr, rfl⟩
  · rw [State.alocGrowth_of_bad_field hd hr]
    rfl
  · rw [State.alocGrowth_of_aloc hd hr]
    exact s.growHeap_heapLen _

/-- One step grows the heap by `alocGrowth`, whatever it finds at pc. -/
theorem step_heapLen {s t : State} (h : step s = .next t) : t.heapLen = s.heapLen + s.alocGrowth := by
  by_cases haloc : ∃ r, fetchDecode s = .instr (.aloc r)
  · obtain ⟨r, hd⟩ := haloc
    exact exec_aloc_heapLen hd ((step_of_instr s _ hd).symm.trans h)
  · rw [State.alocGrowth_of_not_aloc (not_exists.mp haloc), Nat.add_zero]
    rcases step_cases s t h with ⟨-, rfl⟩ | ⟨-, -, rfl⟩ | ⟨-, -, -, rfl⟩ | ⟨-, -, i, hd, hexec⟩
    · rfl
    · rfl
    · rfl
    · exact exec_heapLen_of_not_aloc hexec fun r hi => haloc ⟨r, hi ▸ hd⟩

theorem stepN_heapLen (n : Nat) (s : State) : (stepN n s).heapLen = s.heapLen + totalAlocGrowth n s := by
  induction n generalizing s with
  | zero => rfl
  | succ n ih => rw [stepN, totalAlocGrowth, ih, step_heapLen (step_eq_next_after s), Nat.add_assoc]

theorem after_loadProgram_heapLen (s : State) (bs : List Byte) :
    ((Command.loadProgram bs).after s).heapLen = s.heapLen := by
  rcases hostLoadProgram_cases bs s with ⟨-, hs⟩ | ⟨-, hs⟩ <;> simp only [Command.after, hs]

theorem after_append_heapLen (s : State) (bs : List Byte) : ((Command.append bs).after s).heapLen = s.heapLen := by
  rcases hostAppend_cases bs s with ⟨-, hs⟩ | ⟨-, hs⟩ <;> simp only [Command.after, hs]

/-- Settles O24, by induction on the length of the run (`stepN_heapLen`): a step grows the heap by `alocGrowth`. -/
theorem heapLengthIsTheSumOfAllocations : Obligations.HeapLengthIsTheSumOfAllocations :=
  ⟨stepN_heapLen, fun s bs => ⟨after_loadProgram_heapLen s bs, after_append_heapLen s bs, rfl⟩⟩

end Sys2Proof.Machine
end

section
/-! 60_exceptions.md R201, R208, R210: the truncated fetch, the precision of faults, and FAULTED kept until RESET. -/

namespace Sys2Proof.Machine

/-! ### The truncated fetch (R208) -/

/-- A fetch near the end of the program takes all that is left of it. -/
theorem State.fetched_of_short {s : State} (h : s.len ≤ s.pc.toNat + 4) : s.fetched = s.prog.drop s.pc.toNat := by
  refine List.take_of_length_le ?_
  rw [List.length_drop]
  exact Nat.sub_le_iff_le_add'.mpr h

theorem step_of_truncated {s : State} (hok : s.status ≠ .faulted) (hpc : s.pc.toNat < s.len)
    (hshort : s.len < s.pc.toNat + 4) : step s = .next (s.raiseFault .truncatedInstruction s.fetched.length) := by
  have hlen := s.fetched_length
  simp [step, fetchDecode_truncated s hok hpc (by omega)]

/-- Settles O14: the bytes fetched are those that exist, and the info is their number. -/
theorem truncatedFetchFaults : Obligations.TruncatedFetchFaults := by
  intro s hok hpc hshort
  rw [step_of_truncated hok hpc hshort, State.raiseFault, State.fetched_of_short (Nat.le_of_lt hshort),
    List.length_drop, Int.ofNat_sub (Nat.le_of_lt hpc)]

/-! ### TruncatedInstruction is a fault of the fetch only (R200, R208)

`Effect.Allowed` bounds the fault kinds only while `heap_len <= HEAP_MAX`; R201 is claimed of every state. -/

/-- If `t` is FAULTED, its record is of another kind than TruncatedInstruction. -/
def State.NoFetchFault (t : State) : Prop :=
  t.status = .faulted → ∀ r, t.fault = some r → r.kind ≠ .truncatedInstruction

theorem State.noFetchFault_of_ok {t : State} (h : t.status ≠ .faulted) : t.NoFetchFault :=
  fun hf => absurd hf h

theorem State.noFetchFault_continueNext (s : State) : s.continueNext.NoFetchFault :=
  noFetchFault_of_ok (by simp)

theorem State.noFetchFault_raiseFault (s : State) {kind : FaultKind} (info : Int) (h : kind ≠ .truncatedInstruction) :
    (s.raiseFault kind info).NoFetchFault := by
  rintro - _ ⟨rfl⟩
  exact h

theorem State.noFetchFault_jumpTo (s : State) (target : Int) : (s.jumpTo target).NoFetchFault := by
  rcases s.jumpTo_cases target with ⟨-, -, ht⟩ | ⟨-, ht⟩ <;> rw [ht]
  · exact noFetchFault_of_ok (by simp)
  · exact s.noFetchFault_raiseFault target (by decide)

theorem State.noFetchFault_growHeap (s : State) (n : Int) : (s.growHeap n).NoFetchFault := by
  rcases s.growHeap_cases n with ⟨-, ht⟩ | ⟨-, -, ht⟩ | ⟨-, -, ht⟩ <;> rw [ht]
  · exact s.noFetchFault_raiseFault n (by decide)
  · exact s.noFetchFault_raiseFault n (by decide)
  · exact noFetchFault_continueNext _

theorem noFetchFault_divide (i j d : Fin 32) (s : State) : (divide i j d s).NoFetchFault := by
  rcases divide_cases i j d s with ⟨-, ht⟩ | ⟨-, -, ht⟩ | ⟨-, -, ht⟩ <;> rw [ht]
  · exact s.noFetchFault_raiseFault _ (by decide)
  · exact s.noFetchFault_raiseFault _ (by decide)
  · exact State.noFetchFault_continueNext _

section
variable {s t : State}

theorem noFetchFault_of_withReg {b : Byte} {k : Fin 32 → Result} (hk : ∀ i, k i = .next t → t.NoFetchFault)
    (h : withReg b s k = .next t) : t.NoFetchFault := by
  rcases withReg_cases b s t k h with ⟨-, rfl⟩ | ⟨hb, hi⟩
  · exact s.noFetchFault_raiseFault _ (by decide)
  · exact hk _ hi

theorem noFetchFault_of_withR {r : Byte} {k : Fin 32 → State} (hk : ∀ i, (k i).NoFetchFault)
    (h : withR r s k = .next t) : t.NoFetchFault :=
  noFetchFault_of_withReg (fun i => by rintro ⟨rfl⟩; exact hk i) h

theorem noFetchFault_of_withRR {r1 r2 : Byte} {k : Fin 32 → Fin 32 → State} (hk : ∀ i j, (k i j).NoFetchFault)
    (h : withRR r1 r2 s k = .next t) : t.NoFetchFault :=
  noFetchFault_of_withReg (fun i => noFetchFault_of_withR (hk i)) h

theorem noFetchFault_of_withRRR {r1 r2 r3 : Byte} {k : Fin 32 → Fin 32 → Fin 32 → State}
    (hk : ∀ i j d, (k i j d).NoFetchFault) (h : withRRR r1 r2 r3 s k = .next t) : t.NoFetchFault :=
  noFetchFault_of_withReg (fun i => noFetchFault_of_withRR (hk i)) h

theorem noFetchFault_of_execLoad {r : Byte} {imm : Half} (h : execLoad r imm s = .next t) : t.NoFetchFault :=
  noFetchFault_of_withR (fun _ => State.noFetchFault_continueNext _) h

theorem noFetchFault_of_wrappedR {f : Int → Int} {r : Byte} (h : wrappedR f r s = .next t) : t.NoFetchFault :=
  noFetchFault_of_withR (fun _ => State.noFetchFault_continueNext _) h

theorem noFetchFault_of_wrappedRRR {f : Int → Int → Int} {r1 r2 r3 : Byte} (h : wrappedRRR f r1 r2 r3 s = .next t) :
    t.NoFetchFault :=
  noFetchFault_of_withRRR (fun _ _ _ => State.noFetchFault_continueNext _) h

theorem noFetchFault_of_compareRegs {c : Relation} {r1 r2 : Byte} (h : compareRegs c r1 r2 s = .next t) :
    t.NoFetchFault :=
  noFetchFault_of_withRR (fun _ _ => State.noFetchFault_continueNext _) h

theorem noFetchFault_of_jumpIf {cond : Bool} {r : Byte} (h : jumpIf cond r s = .next t) : t.NoFetchFault := by
  refine noFetchFault_of_withR (fun i => ?_) h
  cases cond
  · exact s.noFetchFault_continueNext
  · exact s.noFetchFault_jumpTo _

/-- The execute phase raises the other six faults only: that of the register fields, and those of the jumps, of DIV
and of ALOC. -/
theorem exec_noFetchFault {i : Instr} (h : exec i s = .next t) : t.NoFetchFault := by
  cases i with
  | hlt | igl =>
    cases h
    exact State.noFetchFault_of_ok (by simp)
  | load => exact noFetchFault_of_execLoad h
  | add | sub | mul => exact noFetchFault_of_wrappedRRR h
  | div => exact noFetchFault_of_withRRR (fun i j d => noFetchFault_divide i j d s) h
  | jmp => exact noFetchFault_of_withR (fun j => s.noFetchFault_jumpTo (s.x j).toInt) h
  | jmpf => exact noFetchFault_of_withR (fun j => s.noFetchFault_jumpTo (s.relativeBase + (s.x j).toInt)) h
  | jmpb => exact noFetchFault_of_withR (fun j => s.noFetchFault_jumpTo (s.relativeBase - (s.x j).toInt)) h
  | eq | neq | gt | lt | gte | lte => exact noFetchFault_of_compareRegs h
  | jeq | jneq => exact noFetchFault_of_jumpIf h
  | aloc => exact noFetchFault_of_withR (fun j => s.noFetchFault_growHeap (s.x j).toInt) h
  | inc => exact noFetchFault_of_wrappedR (f := fun a => a + 1) h
  | dec => exact noFetchFault_of_wrappedR (f := fun a => a - 1) h

/-! ### Faults are precise (R201) -/

/-- A faulting step raises one fault in the state it began in, TruncatedInstruction exactly if fewer than four bytes
remain. -/
theorem exists_raiseFault_of_step (hok : s.status ≠ .faulted) (h : step s = .next t) (hf : t.status = .faulted) :
    ∃ kind info, t = s.raiseFault kind info ∧ (kind = .truncatedInstruction ↔ s.len < s.pc.toNat + 4) := by
  have hlen := s.fetched_length
  rcases step_cases s t h with ⟨hs, -⟩ | ⟨-, -, rfl⟩ | ⟨-, h1, h3, rfl⟩ | ⟨-, h4, i, -, hexec⟩
  · exact absurd hs hok
  · cases hf
  · exact ⟨_, _, rfl, iff_of_true rfl (by omega)⟩
  · rcases exec_status_cases hexec with ⟨-, hst⟩ | ⟨-, hst⟩ | ⟨-, -, hst | ⟨kind, info, rfl⟩⟩
    · cases hst.symm.trans hf
    · cases hst.symm.trans hf
    · cases hst.symm.trans hf
    · exact ⟨kind, info, rfl, iff_of_false (exec_noFetchFault hexec hf _ rfl) (Nat.not_lt.mpr h4)⟩

end

theorem step_of_faulted {s : State} (h : s.status = .faulted) : step s = .next s := by
  simp [step, fetchDecode_faulted s h]

/-- Settles O17: a fault writes the status and the record (`exists_raiseFault_of_step`), and a FAULTED engine steps to
itself. -/
theorem faultsArePrecise : Obligations.FaultsArePrecise := by
  intro s t hok h hf
  refine ⟨?_, step_of_faulted hf⟩
  obtain ⟨kind, info, rfl, htrunc⟩ := exists_raiseFault_of_step hok h hf
  exact ⟨kind, info, rfl, rfl, htrunc⟩

/-! ### FAULTED is left by RESET only (R103, R210) -/

theorem runEnds_of_faulted {s : State} (h : s.status = .faulted) : RunEnds s s := by
  have hafter : Command.step.after s = s := after_step_of_next s s (step_of_faulted h)
  refine (runEnds_iff s s).mpr ⟨0, haltsAfter_zero.mpr ⟨hafter.symm, ?_⟩⟩
  simp [hafter, h]

/-- A FAULTED engine keeps the status and the record under every command but RESET. -/
theorem after_of_faulted {s : State} (h : s.status = .faulted) {cmd : Command} (hcmd : cmd ≠ .reset) :
    (cmd.after s).status = .faulted ∧ (cmd.after s).fault = s.fault := by
  cases cmd with
  | reset => exact absurd rfl hcmd
  | loadProgram bs => rcases hostLoadProgram_cases bs s with ⟨-, hs⟩ | ⟨-, hs⟩ <;> simp [Command.after, hs, h]
  | append bs => rcases hostAppend_cases bs s with ⟨-, hs⟩ | ⟨-, hs⟩ <;> simp [Command.after, hs, h]
  | step => simp [after_step_of_next s s (step_of_faulted h), h]

theorem foldl_after_of_faulted {s : State} (h : s.status = .faulted) {cmds : List Command} (hcmds : .reset ∉ cmds) :
    (cmds.foldl (fun t c => c.after t) s).status = .faulted ∧
      (cmds.foldl (fun t c => c.after t) s).fault = s.fault := by
  induction cmds generalizing s with
  | nil => exact ⟨h, rfl⟩
  | cons cmd cmds ih =>
    obtain ⟨hcmd, htail⟩ := List.ne_and_not_mem_of_not_mem_cons hcmds
    obtain ⟨hst, hfault⟩ := after_of_faulted h hcmd.symm
    obtain ⟨hst', hfault'⟩ := ih hst htail
    exact ⟨hst', hfault'.trans hfault⟩

/-- Settles O15, by induction on the commands (`foldl_after_of_faulted`); a step or a RUN answers the state itself. -/
theorem faultIsStickyUntilReset : Obligations.FaultIsStickyUntilReset := fun s h =>
  ⟨step_of_faulted h, runEnds_of_faulted h, by simp [State.result, h], fun _ hcmds => foldl_after_of_faulted h hcmds,
    rfl, rfl⟩

end Sys2Proof.Machine
end

section
/-! 70_reset_and_hazards.md R237: an append at the end of the program is what the next step fetches. -/

namespace Sys2Proof.Machine

/-- The first four bytes say which instruction is decoded (30_encoding.md R66). -/
theorem decode_take_four {c : Config} {bs rest : List Byte} {i : Instr} (h : decode c bs = .instr i rest) :
    decode c (bs.take 4) = .instr i [] := by
  match bs, h with
  | _ :: _ :: _ :: _ :: _, rfl => rfl

/-- At the end of the old program a fetch sees the appended bytes only. -/
theorem Memory.fetch4_append_length (m : Memory) (bs : List Byte) : (m ++ bs).fetch4 m.length = bs.take 4 := by
  rw [Memory.fetch4, List.drop_left]

/-- With pc at the end of the old program, the next step executes the first appended instruction. -/
theorem step_append_at_end {s : State} {bs rest : List Byte} {i : Instr} (hok : s.status ≠ .faulted)
    (hpc : s.pc.toNat = s.prog.length) (hdec : decode s.cfg bs = .instr i rest) :
    step { s with prog := s.prog ++ bs } = exec i { s with prog := s.prog ++ bs } := by
  have hfetched : State.fetched { s with prog := s.prog ++ bs } = bs.take 4 := by
    rw [State.fetched, hpc, Memory.fetch4_append_length]
  refine step_of_instr _ i (fetchDecode_of_decode (rest := []) hok ?_)
  rw [hfetched]
  exact decode_take_four hdec

/-- Settles O28: the step at the end writes the status only (`step_of_end`), the append the program only
(`eq_of_hostAppend_done`), and the next step finds the appended instruction (`step_append_at_end`). -/
theorem appendAfterEndResumes : Obligations.AppendAfterEndResumes := by
  intro s t u bs rest i hok hpc hstep happend hdec
  cases hstep.symm.trans (step_of_end hok hpc.ge)
  obtain rfl := eq_of_hostAppend_done happend
  exact ⟨rfl, step_append_at_end (s := s.haltEnd) (by simp) hpc hdec, rfl⟩

end Sys2Proof.Machine
end
